-- ==== Sys2Proof/Word.lean ====
section
/-! DEFINITION. The widths of the hardware's values (00_scope.md rules R7 and R8): the word, the
address, which is also the operand field and the program counter, and the opcode field. -/

namespace Sys2Proof

/-- A word: 8 bits, bit 7 the most significant (00_scope.md R8; `WORD_BITS` of R7). -/
abbrev Word := BitVec 8

/-- A 5-bit field: the operand field `w[4:0]`, a memory address, a jump target, the program counter
(00_scope.md R7 `ADDR_BITS` and `OPERAND_BITS`; 10_state.md R22). -/
abbrev Field5 := BitVec 5

end Sys2Proof
end

