-- ==== Sys2Proof/Config.lean ====
section
/-! DEFINITION. What is fixed for one machine: the open parameter `SIGNED_DECODE` of 00_scope.md R6 and
the memory size of R7. -/

namespace Sys2Proof

/-- The two values of the parameter `SIGNED_DECODE` (00_scope.md R6). -/
inductive SignedDecode where
  /-- `LEGACY`: the top bit weighs `2^(n-1)` (40_codec.md R83). -/
  | legacy
  /-- `TWOS_COMPLEMENT`: the top bit weighs `-2^(n-1)` (40_codec.md R83). -/
  | twosComplement
  deriving DecidableEq, Repr, Inhabited

/-- `SIGNED_DECODE` of the machine at hand. The spec leaves it open (92_eei_decisions.md D1: `OPEN`;
93_implementation_defined.md row 1), so it has no body: a claim about the machine is a claim for both
values. SAFE; log entry 1. -/
opaque Config.signedDecode : SignedDecode

/-- `MEM_WORDS`: "exactly 32 Words, addressed 0–31" (00_scope.md R7). -/
def Config.memWords : Nat := 32

end Sys2Proof
end

