-- ==== Sys2Proof/Syntax.lean ====
section
/-! DEFINITION. The eight instructions, one constructor per row of spec/opcode_table.json. -/

namespace Sys2Proof

/-- A decoded instruction: "a tagged variant over the 8 opcodes {HLT, LOD, LDC, STO, ADD, SUB, JMP, JMZ},
each (except HLT) carrying a 5-bit operand field" (30_encoding.md R62). The operand is the raw field
`w[4:0]`; how it is read depends on the instruction (R64). -/
inductive Instr where
  /-- HLT: halt. It carries no operand, since its operand field is ignored (R62, R67). -/
  | hlt
  /-- LOD: load AC from memory; `a` is an address (R64). -/
  | lod (a : Field5)
  /-- LDC: load AC with a constant; `a` is the immediate (R64, R65). -/
  | ldc (a : Field5)
  /-- STO: store AC to memory; `a` is an address (R64). -/
  | sto (a : Field5)
  /-- ADD: add memory to AC; `a` is an address (R64). -/
  | add (a : Field5)
  /-- SUB: subtract memory from AC; `a` is an address (R64). -/
  | sub (a : Field5)
  /-- JMP: jump if AC is not negative; `a` is an absolute target (R64). -/
  | jmp (a : Field5)
  /-- JMZ: jump if AC is zero; `a` is an absolute target (R64). -/
  | jmz (a : Field5)
  deriving DecidableEq, Repr

end Sys2Proof
end

