-- ==== Sys2Proof/WellFormed.lean ====
section
/-! DEFINITION. Which terms a machine may be given: instructions (30_encoding.md R66) and the host's
memory image (70_reset_and_hazards.md R181). -/

namespace Sys2Proof

/-- Every instruction is well formed with every operand: "No encoding is illegal or reserved"
(30_encoding.md R66), and each operand value 0..31 is a legal address, target or immediate (R64,
20_memory.md R47). The one bound there is, five bits, stands in the operand's type, so this check has
nothing left to refuse. -/
def Instr.wellFormed (i : Instr) : Bool :=
  match i with
  | .hlt => true
  | .lod _ => true
  | .ldc _ => true
  | .sto _ => true
  | .add _ => true
  | .sub _ => true
  | .jmp _ => true
  | .jmz _ => true

/-- The image is "a list of at most 32 words" (70_reset_and_hazards.md R181); any word values will do
(R185). More words cannot be presented to the core (92_eei_decisions.md D7). -/
def imageWellFormed (image : List Word) : Bool :=
  decide (image.length ≤ Config.memWords)

end Sys2Proof
end

