-- ==== Sys2Proof/Decode.lean ====
section
/-! DEFINITION. The decoder and the encoder, both written from the opcode map of 30_encoding.md R63. -/

namespace Sys2Proof

/-- The operand field `a = w[4:0]` (30_encoding.md R60). -/
def operandField (w : Word) : Field5 := w.extractLsb' 0 5

/-- Decode a word by its opcode bits `w[7]`, `w[6]`, `w[5]` alone (30_encoding.md R62, R63). The eight
arms are all there is, so decoding cannot fail (R66). -/
def decode (w : Word) : Instr :=
  match w.getLsbD 7, w.getLsbD 6, w.getLsbD 5 with
  | false, false, false => .hlt
  | false, false, true  => .lod (operandField w)
  | false, true,  false => .ldc (operandField w)
  | false, true,  true  => .sto (operandField w)
  | true,  false, false => .add (operandField w)
  | true,  false, true  => .sub (operandField w)
  | true,  true,  false => .jmp (operandField w)
  | true,  true,  true  => .jmz (operandField w)

/-- Why a list of bytes holds no instruction. No byte is refused; only an empty list is. -/
inductive DecodeError where
  /-- There is no byte to decode. Raised by `decodeBytes` only; the machine always fetches a word. -/
  | noByte
  deriving DecidableEq, Repr

/-- Decode the first instruction of a list of bytes, and give the bytes after it: every instruction is
one word long (30_encoding.md R61). -/
def decodeBytes (bytes : List Word) : Except DecodeError (Instr × List Word) :=
  match bytes with
  | [] => .error .noByte
  | w :: rest => .ok (decode w, rest)

/-- The word of an instruction: opcode above, operand below (30_encoding.md R60, R63). HLT has 32 words
(R67); this is its canonical one (44_control_transfer.md R140). -/
def encode (i : Instr) : Word :=
  match i with
  | .hlt   => 0b000#3 ++ 0b00000#5
  | .lod a => 0b001#3 ++ a
  | .ldc a => 0b010#3 ++ a
  | .sto a => 0b011#3 ++ a
  | .add a => 0b100#3 ++ a
  | .sub a => 0b101#3 ++ a
  | .jmp a => 0b110#3 ++ a
  | .jmz a => 0b111#3 ++ a

/-- The words of a list of instructions, one each, in order. -/
def encodeAll (is : List Instr) : List Word := is.map encode

/-- Decode `n` instructions in a row from a list of bytes. -/
def decodeMany (n : Nat) (bytes : List Word) : Except DecodeError (List Instr × List Word) :=
  match n with
  | 0 => .ok ([], bytes)
  | n + 1 =>
    match decodeBytes bytes with
    | .error e => .error e
    | .ok (i, rest) =>
      match decodeMany n rest with
      | .error e => .error e
      | .ok (is, rest') => .ok (i :: is, rest')

/-- One row of spec/opcode_table.json: a word `w` is in the row exactly when `w &&& mask = pattern`. -/
structure OpcodeRow where
  /-- The row's "mnemonic". -/
  mnemonic : String
  /-- The row's "mask". -/
  mask : Word
  /-- The row's "match". -/
  pattern : Word
  deriving DecidableEq, Repr

/-- The rows of spec/opcode_table.json, in its order (30_encoding.md R63). -/
def opcodeTable : List OpcodeRow :=
  [⟨"HLT", 0xE0, 0x00⟩, ⟨"LOD", 0xE0, 0x20⟩, ⟨"LDC", 0xE0, 0x40⟩, ⟨"STO", 0xE0, 0x60⟩,
   ⟨"ADD", 0xE0, 0x80⟩, ⟨"SUB", 0xE0, 0xA0⟩, ⟨"JMP", 0xE0, 0xC0⟩, ⟨"JMZ", 0xE0, 0xE0⟩]

/-- A word is in a row of the table. -/
def OpcodeRow.covers (r : OpcodeRow) (w : Word) : Bool := w &&& r.mask == r.pattern

/-- The place of an instruction's row in `opcodeTable`, which is its opcode number (30_encoding.md R63). -/
def Instr.opcode (i : Instr) : Fin 8 :=
  match i with
  | .hlt => 0
  | .lod _ => 1
  | .ldc _ => 2
  | .sto _ => 3
  | .add _ => 4
  | .sub _ => 5
  | .jmp _ => 6
  | .jmz _ => 7

/-- What the decoder reads from an instruction whose bits are `w`, of which the table gives `nbits`. An
instruction is one byte (30_encoding.md R61), so its bits above `nbits` are zero, and a longer row is no
instruction of this hardware. -/
def decodeTableWord (nbits w : Nat) : Option Instr :=
  if nbits ≤ 8 then
    match decodeBytes [BitVec.ofNat 8 (w % 2 ^ nbits)] with
    | .ok (i, _) => some i
    | .error _ => none
  else none

end Sys2Proof
end

