-- ==== Sys2Proof/Machine/Codec.lean ====
section
/-! DEFINITION. The bit/decimal codec: `enc_n`, `u_n` and `s_n` of 40_codec.md R80 to R83. All three are
total. -/

namespace Sys2Proof.Machine

/-- `enc_n(x)`: the n-bit vector that encodes the integer `x`, its high bits silently dropped; the unique
one with `u_n(v) = x mod 2^n` (40_codec.md R81). -/
def enc (n : Nat) (x : Int) : BitVec n := BitVec.ofInt n x

/-- `u_n(v)`: the unsigned value (40_codec.md R82). -/
def uval {n : Nat} (v : BitVec n) : Int := (v.toNat : Int)

/-- The weight of the top bit of an n-bit vector in its signed reading (40_codec.md R83). -/
def topWeight (d : SignedDecode) (n : Nat) : Int :=
  match d with
  | .legacy => ((2 ^ (n - 1) : Nat) : Int)
  | .twosComplement => -((2 ^ (n - 1) : Nat) : Int)

/-- `s_n(v)`: the signed value under `SIGNED_DECODE = d`: the top bit's weight, where it is set, plus
`rest`, the value of the bits below it (40_codec.md R83). The parameter is looked at only where the top
bit is set. -/
def sval (d : SignedDecode) {n : Nat} (v : BitVec n) : Int :=
  let rest : Int := ((v.toNat % 2 ^ (n - 1) : Nat) : Int)
  if v.msb then topWeight d n + rest else rest

end Sys2Proof.Machine
end

