-- ==== Sys2Proof/Machine/State.lean ====
section
/-! DEFINITION. The architectural state, exactly the tuple of 10_state.md R30, its reset value (R31), and
the reasons a step can stop. -/

namespace Sys2Proof.Machine

/-- The run state `RUN` (10_state.md R24). -/
inductive RunState where
  | running
  | halted
  deriving DecidableEq, Repr

/-- The memory bank: the words that differ from what an unlisted address reads as, by address
(20_memory.md R40). -/
abbrev Memory := List Host.Cell

/-- What an address that is not listed reads as: `00000000`, the value that reset gives every word
(10_state.md R31). -/
def Memory.unlisted : Word := 0#8

/-- The canonical form of a memory: addresses strictly rising, each in 0..31 (20_memory.md R40), and no
entry equal to what an unlisted address reads as. -/
abbrev Memory.wf (m : Memory) : Prop :=
  m.Pairwise (fun c d => c.1 < d.1) ∧
    ∀ c ∈ m, c.1 < Config.memWords ∧ c.2 ≠ Memory.unlisted

/-- The architectural state between two steps: "exactly this tuple" (10_state.md R30). -/
structure State where
  /-- `AC`, the accumulator (R20). -/
  ac : Word
  /-- `PC`, the program counter (R22). -/
  pc : Field5
  /-- `RUN`, the run state (R24). -/
  run : RunState
  /-- `Memory[0..31]`, code and data (R29). -/
  mem : Memory
  deriving DecidableEq, Repr

/-- The machine right after reset, before the host's image is loaded (10_state.md R31,
70_reset_and_hazards.md R180). -/
def State.reset : State where
  ac := 0b00000000#8
  pc := 0#5
  run := .running
  mem := []

/-- Why a machine stops. The hardware has no exception (60_exceptions.md R160). -/
inductive Fault where
  /-- Raised by `step` alone, of a halted state: "A state with `RUN = Halted` has no step" (41_cycle.md
  R105). It is a stuck state, no exception of the hardware. SAFE: the model takes no step where the
  hardware takes none (log entry 4). -/
  | halted
  deriving DecidableEq, Repr

/-- Why an instruction has no meaning. -/
inductive Refusal where
  /-- Raised by an arm of `exec` whose instruction is not modelled. No arm raises it: all eight
  instructions have their meaning. SAFE. -/
  | notModelled (mnemonic : String)
  deriving DecidableEq, Repr

end Sys2Proof.Machine
end

