-- ==== Sys2Proof/Machine/Ops.lean ====
section
/-! DEFINITION. The named operations over registers and memory, the ALU, and the PC update. The hardware
has no exceptions and no return from one (60_exceptions.md R160, R164, R165), so there is no operation
that takes one. -/

namespace Sys2Proof.Machine

/-- The word at address `a`: the first entry for it, or what an unlisted address reads as
(20_memory.md R43). -/
def Memory.get (m : Memory) (a : Nat) : Word :=
  match m with
  | [] => Memory.unlisted
  | (b, w) :: rest => if a = b then w else Memory.get rest a

/-- The memory without its entries for `a`. -/
def Memory.drop (m : Memory) (a : Nat) : Memory :=
  m.filter fun c => !(c.1 == a)

/-- The memory with an entry for `a` put in before the first higher address. -/
def Memory.place (m : Memory) (a : Nat) (v : Word) : Memory :=
  match m with
  | [] => [(a, v)]
  | c :: rest => if a < c.1 then (a, v) :: c :: rest else c :: Memory.place rest a v

/-- Replace the word at address `a` by `v` and change no other (20_memory.md R44). Writing what an
unlisted address reads as leaves no entry, so the form stays canonical. -/
def Memory.put (m : Memory) (a : Nat) (v : Word) : Memory :=
  if v = Memory.unlisted then Memory.drop m a else Memory.place (Memory.drop m a) a v

/-- `MemRead(addr, 1)` (20_memory.md R43). The 5-bit address is always inside the bank (R45). -/
def State.readMem (s : State) (a : Field5) : Word := Memory.get s.mem a.toNat

/-- `MemWrite(addr, 1, v)` (20_memory.md R44). -/
def State.writeMem (s : State) (a : Field5) (v : Word) : State :=
  { s with mem := Memory.put s.mem a.toNat v }

/-- `AC <- v` (00_scope.md R11). -/
def State.setAc (s : State) (v : Word) : State := { s with ac := v }

/-- `PC <- target` (00_scope.md R11). -/
def State.setPc (s : State) (target : Field5) : State := { s with pc := target }

/-- `RUN <- r` (10_state.md R24). -/
def State.setRun (s : State) (r : RunState) : State := { s with run := r }

/-- Fetch: the copy of `Memory[PC]` that the step decodes, the source's `IR` (41_cycle.md R101,
10_state.md R25). -/
def fetch (s : State) : Word := s.readMem s.pc

/-- `(PC + 1) mod 32`: the increment wraps from 31 to 0 (41_cycle.md R104). -/
def nextPc (pc : Field5) : Field5 := BitVec.ofNat 5 ((pc.toNat + 1) % 32)

/-- The PC update: "if not taken: PC <- (PC + 1) mod 32"; a taken jump has already written its target
(41_cycle.md R104). -/
def updatePc (taken : Bool) (s : State) : State :=
  if taken then s else s.setPc (nextPc s.pc)

/-- The end of every step but a HLT step: the PC update, and the state it leaves (41_cycle.md R100). -/
def completeStep (taken : Bool) (s : State) : Host.Outcome State Fault Refusal :=
  .next (updatePc taken s)

/-- The shared form of the two jumps: where the condition holds, "PC ← unsigned(operand) and mark
jump-taken" (10_state.md R26); then the PC update (41_cycle.md R104). -/
def jumpWhen (condition : Bool) (target : Field5) (s : State) : Host.Outcome State Fault Refusal :=
  completeStep condition (if condition then s.setPc target else s)

/-- The ALU sum of ADD, `(u_8(m) + u_8(AC)) mod 256` as a word: the form of 43_arithmetic.md R130 in which
`SIGNED_DECODE` does not occur; 40_codec.md R87 says it equals `enc_8(s_8(m) + s_8(AC))`. -/
def aluSum (m ac : Word) : Word := enc 8 (uval m + uval ac)

/-- The ALU difference of SUB, accumulator minus memory, `(u_8(AC) - u_8(m)) mod 256` as a word: the form of
43_arithmetic.md R131 in which `SIGNED_DECODE` does not occur; 40_codec.md R88 says it equals
`enc_8(s_8(AC) - s_8(m))`. -/
def aluDifference (ac m : Word) : Word := enc 8 (uval ac - uval m)

end Sys2Proof.Machine
end

