-- ==== Sys2Proof/Machine/Operands.lean ====
section
/-! DEFINITION. The operand forms of 30_encoding.md R64 and R65: the absolute address or target, the memory
operand, and LDC's immediate. There is no other addressing mode. -/

namespace Sys2Proof.Machine

/-- The value of `SIGNED_DECODE` the machine uses: the open constant of Config (00_scope.md R6; log
entry 1). Every use of the parameter by a meaning goes through this name. -/
def signedDecode : SignedDecode := Config.signedDecode

/-- `u_5(a)` as an address or a jump target: absolute, nothing is added to it (30_encoding.md R64). -/
def absoluteAddress (a : Field5) : Field5 := a

/-- The memory operand of LOD, ADD and SUB: the word at `u_5(a)` (30_encoding.md R64). -/
def memoryOperand (s : State) (a : Field5) : Word := s.readMem (absoluteAddress a)

/-- LDC's immediate `enc_8(s_5(a))`, under `SIGNED_DECODE = d` (30_encoding.md R65). -/
def ldcImmediate (d : SignedDecode) (a : Field5) : Word := enc 8 (sval d a)

end Sys2Proof.Machine
end

