-- ==== Sys2Proof/Machine/Arithmetic.lean ====
section
/-! DEFINITION. ADD and SUB (43_arithmetic.md): both wrap modulo 256 and record nothing (40_codec.md R89). -/

namespace Sys2Proof.Machine

/-- ADD: `AC <- enc_8(s_8(m) + s_8(AC))`, `m` the memory operand (43_arithmetic.md R130). -/
def execAdd (a : Field5) (s : State) : Host.Outcome State Fault Refusal :=
  completeStep false (s.setAc (aluSum (memoryOperand s a) s.ac))

/-- SUB: `AC <- enc_8(s_8(AC) - s_8(m))`, accumulator minus memory (43_arithmetic.md R131). -/
def execSub (a : Field5) (s : State) : Host.Outcome State Fault Refusal :=
  completeStep false (s.setAc (aluDifference s.ac (memoryOperand s a)))

end Sys2Proof.Machine
end

