-- ==== Sys2Proof/Machine/Flags.lean ====
section
/-! DEFINITION. The core has no flags and no condition codes (10_state.md R27): no instruction records a
carry, an overflow, a zero or a sign. What stands here is the two tests of `AC` itself that JMP and JMZ
make when they run (40_codec.md R90). -/

namespace Sys2Proof.Machine

/-- JMP's test `s_8(x) >= 0`, under `SIGNED_DECODE = d` (40_codec.md R90, 44_control_transfer.md R141). -/
def isNonNegative (d : SignedDecode) (x : Word) : Bool := decide (0 ≤ sval d x)

/-- JMZ's test `s_8(x) = 0`, which is true exactly when `x = 00000000`, under both values of
`SIGNED_DECODE` (40_codec.md R90, 44_control_transfer.md R142). -/
def isZero (x : Word) : Bool := decide (x = 0b00000000#8)

end Sys2Proof.Machine
end

