-- ==== Sys2Proof/Machine/ControlTransfer.lean ====
section
/-! DEFINITION. HLT, JMP and JMZ (44_control_transfer.md). -/

namespace Sys2Proof.Machine

/-- HLT: `RUN <- Halted`, and no PC update: the PC keeps the HLT's address (44_control_transfer.md R140,
41_cycle.md R104). -/
def execHlt (s : State) : Host.Outcome State Fault Refusal :=
  .next (s.setRun .halted)

/-- JMP on a machine with `SIGNED_DECODE = d`: to `u_5(a)` where `s_8(AC) >= 0`, else on to the next word
(44_control_transfer.md R141). -/
def jmpUnder (d : SignedDecode) (a : Field5) (s : State) : Host.Outcome State Fault Refusal :=
  jumpWhen (isNonNegative d s.ac) (absoluteAddress a) s

/-- JMP, under the machine's own value of the parameter (44_control_transfer.md R141). -/
def execJmp (a : Field5) (s : State) : Host.Outcome State Fault Refusal :=
  jmpUnder signedDecode a s

/-- JMZ: to `u_5(a)` where `s_8(AC) = 0`, else on to the next word (44_control_transfer.md R142). -/
def execJmz (a : Field5) (s : State) : Host.Outcome State Fault Refusal :=
  jumpWhen (isZero s.ac) (absoluteAddress a) s

end Sys2Proof.Machine
end

