-- ==== Sys2Proof/Machine/DataTransfer.lean ====
section
/-! DEFINITION. LOD, LDC and STO (42_data_transfer.md). Each is its arm of 41_cycle.md R100 and then the PC
update of R104. -/

namespace Sys2Proof.Machine

/-- LOD: `AC <- MemRead(u_5(a), 1)`, a raw copy (42_data_transfer.md R120). -/
def execLod (a : Field5) (s : State) : Host.Outcome State Fault Refusal :=
  completeStep false (s.setAc (memoryOperand s a))

/-- LDC on a machine with `SIGNED_DECODE = d`: `AC <- enc_8(s_5(a))` (42_data_transfer.md R121). -/
def ldcUnder (d : SignedDecode) (a : Field5) (s : State) : Host.Outcome State Fault Refusal :=
  completeStep false (s.setAc (ldcImmediate d a))

/-- LDC, under the machine's own value of the parameter (42_data_transfer.md R121). -/
def execLdc (a : Field5) (s : State) : Host.Outcome State Fault Refusal :=
  ldcUnder signedDecode a s

/-- STO: `MemWrite(u_5(a), 1, AC)`, a raw copy (42_data_transfer.md R122). -/
def execSto (a : Field5) (s : State) : Host.Outcome State Fault Refusal :=
  completeStep false (s.writeMem (absoluteAddress a) s.ac)

end Sys2Proof.Machine
end

