-- ==== Sys2Proof/Machine/Dispatch.lean ====
section
/-! DEFINITION. Execute: the arm the instruction selects, and only that arm (41_cycle.md R103). -/

namespace Sys2Proof.Machine

/-- The execute phase and the PC update of one instruction (41_cycle.md R100, R103, R104). Whether the
machine is running is `step`'s question, not this one's. -/
def exec (i : Instr) (s : State) : Host.Outcome State Fault Refusal :=
  match i with
  | .hlt => Sys2Proof.Machine.execHlt s
  | .lod a => Sys2Proof.Machine.execLod a s
  | .ldc a => Sys2Proof.Machine.execLdc a s
  | .sto a => Sys2Proof.Machine.execSto a s
  | .add a => Sys2Proof.Machine.execAdd a s
  | .sub a => Sys2Proof.Machine.execSub a s
  | .jmp a => Sys2Proof.Machine.execJmp a s
  | .jmz a => Sys2Proof.Machine.execJmz a s

end Sys2Proof.Machine
end

