-- ==== Sys2Proof/Machine/Step.lean ====
section
/-! DEFINITION. One step of the machine (41_cycle.md R100), and the state in which a given instruction is
the next one. -/

namespace Sys2Proof.Machine

/-- One step: fetch, decode, execute and PC update of exactly one instruction (41_cycle.md R100 to R104).
A halted state has no step (R105; log entry 4). -/
def step (s : State) : Host.Outcome State Fault Refusal :=
  match s.run with
  | .running => exec (decode (fetch s)) s
  | .halted => .fault .halted

/-- `s` with the instruction whose low `nbits` bits are those of `w`, the others zero, stored at the PC,
and the machine running, so that the very next step runs it. It stands for the host's loading of a
program (log entry 5). -/
def State.withFetchWord (s : State) (nbits w : Nat) : State :=
  (s.writeMem s.pc (BitVec.ofNat 8 (w % 2 ^ nbits))).setRun .running

end Sys2Proof.Machine
end

