-- ==== Sys2Proof/Machine/Run.lean ====
section
/-! DEFINITION. The host's interface at the level of whole runs (70_reset_and_hazards.md R180 to R190): the
start of a run, the result it ends with, and a run under the host's step budget. -/

namespace Sys2Proof.Machine

/-- Store the words of a list at the addresses `k`, `k + 1`, … in order (70_reset_and_hazards.md R181). -/
def Memory.loadFrom (m : Memory) (k : Nat) (image : List Word) : Memory :=
  match image with
  | [] => m
  | w :: rest => Memory.loadFrom (Memory.put m k w) (k + 1) rest

/-- `StartRun(image)`: reset every piece of state, then load the image, word k at address k; addresses the
list does not reach keep `00000000` (70_reset_and_hazards.md R180, R181). An image of more than 32 words
cannot be presented, so there is no state for it (92_eei_decisions.md D7; log entry 6). -/
def startRun (image : List Word) : Option State :=
  if imageWellFormed image then
    some { State.reset with mem := Memory.loadFrom State.reset.mem 0 image }
  else none

/-- The `halted` output (70_reset_and_hazards.md R188). -/
def State.isHalted (s : State) : Bool := decide (s.run = .halted)

/-- The result of a run: "the tuple (`Memory`, `AC`, `s_8(AC)`, `PC`)" of its halted state
(70_reset_and_hazards.md R189). -/
structure RunResult where
  /-- `mem_out`: the full memory bank as 32 ordered words (R186, R188). -/
  memOut : List Word
  /-- `ac_out`: the raw bits of `AC`. -/
  acOut : Word
  /-- `ac_signed`: `s_8(AC)` (40_codec.md R92). -/
  acSigned : Int
  /-- `pc_out`: the address of the HLT that ended the run. -/
  pcOut : Field5
  deriving DecidableEq, Repr

/-- The memory bank as 32 ordered words (70_reset_and_hazards.md R186). -/
def State.memOut (s : State) : List Word :=
  (List.range Config.memWords).map (Memory.get s.mem)

/-- What the core exposes to the host: its final state, and only "valid when `halted`"
(70_reset_and_hazards.md R186, R188, R189). -/
def result (s : State) : Option RunResult :=
  match s.run with
  | .running => none
  | .halted => some ⟨s.memOut, s.ac, sval signedDecode s.ac, s.pc⟩

/-- How a run under a step budget comes out (70_reset_and_hazards.md R190). -/
inductive RunOutcome where
  /-- The run ended: it reached `RUN = Halted`, with this result (R189). -/
  | ended (r : RunResult)
  /-- The host stopped stepping, the machine still running: neither halted nor ended (R190). -/
  | budgetExhausted (s : State)
  /-- A running machine's step faulted. This core has no faults (60_exceptions.md R160). -/
  | faulted (r : Fault)
  /-- A running machine's step was refused. All instructions are modelled. -/
  | refused (r : Refusal)
  deriving DecidableEq, Repr

/-- A host that runs the core under a budget of `budget` steps: it steps for as long as the machine is
running and budget is left (70_reset_and_hazards.md R190, 41_cycle.md R106). -/
def runUnder (budget : Nat) (s : State) : RunOutcome :=
  match result s, budget with
  | some r, _ => .ended r
  | none, 0 => .budgetExhausted s
  | none, n + 1 =>
    match step s with
    | .next t => runUnder n t
    | .fault r => .faulted r
    | .refused r => .refused r

end Sys2Proof.Machine
end

