-- ==== Sys2Proof/Machine/Reference.lean ====
section
/-! DEFINITION. The spec's own step, written out a second time as 41_cycle.md R100 prints it: over a memory
that is a total array of 32 words, words that are rows of bits, and the codec's sums and loops of
40_codec.md R81 to R83. Claims say that `step` and this function agree; the machine never calls it. -/

namespace Sys2Proof.Machine.Reference

/-- An n-bit vector as its bits; bit i has weight `2^i` (00_scope.md R8). -/
abbrev Bits (n : Nat) := Fin n → Bool

/-- A bit as an integer. -/
def bit (b : Bool) : Int := if b then 1 else 0

/-- `sum over i of v[i] * 2^i` (40_codec.md R82). -/
def unsigned {n : Nat} (v : Bits n) : Int := ∑ i : Fin n, bit (v i) * 2 ^ (i : Nat)

/-- `s_(n+1)(v)`, by the formula of 40_codec.md R83. -/
def signed (d : SignedDecode) {n : Nat} (v : Bits (n + 1)) : Int :=
  let rest := ∑ i : Fin n, bit (v i.castSucc) * 2 ^ (i : Nat)
  match d with
  | .legacy => bit (v (Fin.last n)) * 2 ^ n + rest
  | .twosComplement => -(bit (v (Fin.last n))) * 2 ^ n + rest

/-- `enc_n(x)`, bit by bit: `v[i] = floor(x / 2^i) mod 2` (40_codec.md R81). -/
def encBits (n : Nat) (x : Int) : Bits n := fun i => decide (Int.fdiv x (2 ^ (i : Nat)) % 2 = 1)

/-- The state tuple of 10_state.md R30, with the memory as an array. -/
structure ArrayState where
  ac : Bits 8
  pc : Fin 32
  halted : Bool
  memory : Fin 32 → Bits 8

/-- The opcode `u_3(IR[7:5])` (41_cycle.md R102). -/
def opcode (ir : Bits 8) : Int := unsigned fun i : Fin 3 => ir (i.natAdd 5)

/-- The operand `IR[4:0]` (41_cycle.md R102). -/
def operand (ir : Bits 8) : Bits 5 := fun i => ir (i.castLE (by decide))

/-- An integer as an address. Every integer it is given is in 0..31 (20_memory.md R45). -/
def address (x : Int) : Fin 32 := Fin.ofNat 32 x.toNat

/-- `Step(state)` of 41_cycle.md R100, "defined only when RUN = Running". -/
def step (d : SignedDecode) (m : ArrayState) : Option ArrayState :=
  if m.halted then none else
    let ir := m.memory m.pc
    let op := opcode ir
    let a := operand ir
    let advanced := { m with pc := address ((m.pc + 1) % 32) }
    if op = 0 then some { m with halted := true }
    else if op = 1 then some { advanced with ac := m.memory (address (unsigned a)) }
    else if op = 2 then some { advanced with ac := encBits 8 (signed d a) }
    else if op = 3 then
      some { advanced with memory := fun b => if b = address (unsigned a) then m.ac else m.memory b }
    else if op = 4 then
      some { advanced with ac := encBits 8 (signed d (m.memory (address (unsigned a))) + signed d m.ac) }
    else if op = 5 then
      some { advanced with ac := encBits 8 (signed d m.ac - signed d (m.memory (address (unsigned a)))) }
    else if op = 6 then
      if signed d m.ac ≥ 0 then some { m with pc := address (unsigned a) } else some advanced
    else if op = 7 then
      if signed d m.ac = 0 then some { m with pc := address (unsigned a) } else some advanced
    else none

/-- The bits of a word. -/
def bitsOf {n : Nat} (w : BitVec n) : Bits n := fun i => w.getLsbD i

/-- The array machine that a state stands for. -/
def ofState (s : State) : ArrayState where
  ac := bitsOf s.ac
  pc := s.pc.toFin
  halted := s.isHalted
  memory := fun a => bitsOf (s.readMem (BitVec.ofFin a))

end Sys2Proof.Machine.Reference
end

