-- ==== Sys2Proof/Machine/Text.lean ====
section
/-! DEFINITION. The text forms of words: the disassembler's output (30_encoding.md R71) and the assembler
notation built on it (R72). The core never reads them; they say how programs are written. -/

namespace Sys2Proof.Machine

/-- The eight mnemonics, in the order of their opcodes (30_encoding.md R63). -/
inductive Mnemonic where
  | hlt | lod | ldc | sto | add | sub | jmp | jmz
  deriving DecidableEq, Repr

/-- The opcode number of a mnemonic (30_encoding.md R63). -/
def Mnemonic.opcode (m : Mnemonic) : Int :=
  match m with
  | .hlt => 0
  | .lod => 1
  | .ldc => 2
  | .sto => 3
  | .add => 4
  | .sub => 5
  | .jmp => 6
  | .jmz => 7

/-- A mnemonic as text, in upper case (30_encoding.md R71). -/
def Mnemonic.text (m : Mnemonic) : String :=
  match m with
  | .hlt => "HLT"
  | .lod => "LOD"
  | .ldc => "LDC"
  | .sto => "STO"
  | .add => "ADD"
  | .sub => "SUB"
  | .jmp => "JMP"
  | .jmz => "JMZ"

/-- The canonical text forms of a word (30_encoding.md R71). -/
inductive TextForm where
  /-- `HLT`, without an operand. -/
  | halt
  /-- A mnemonic and a decimal operand. -/
  | instruction (m : Mnemonic) (n : Int)
  /-- A decimal number: a HLT word with a nonzero operand field, printed as the data it holds. -/
  | constant (n : Int)
  deriving DecidableEq, Repr

/-- The disassembler, word by word, under `SIGNED_DECODE = d`: LDC's operand is printed signed, all others
unsigned (30_encoding.md R71). -/
def disassemble (d : SignedDecode) (w : Word) : TextForm :=
  match decode w with
  | .hlt => if w = 0#8 then .halt else .constant (uval w)
  | .lod a => .instruction .lod (uval a)
  | .ldc a => .instruction .ldc (sval d a)
  | .sto a => .instruction .sto (uval a)
  | .add a => .instruction .add (uval a)
  | .sub a => .instruction .sub (uval a)
  | .jmp a => .instruction .jmp (uval a)
  | .jmz a => .instruction .jmz (uval a)

/-- A text form printed: "One space separates mnemonic and operand" (30_encoding.md R71). -/
def TextForm.render (t : TextForm) : String :=
  match t with
  | .halt => "HLT"
  | .instruction m n => m.text ++ " " ++ toString n
  | .constant n => toString n

/-- Which text forms R71 and R72 allow under `SIGNED_DECODE = d`: operands 0..31; LDC's operand 0..31 under
`LEGACY` and −16..15 under `TWOS_COMPLEMENT`; HLT takes no operand; a constant is 1..31 (30_encoding.md
R71, R72). -/
def TextForm.wellFormed (d : SignedDecode) (t : TextForm) : Bool :=
  match t with
  | .halt => true
  | .instruction .hlt _ => false
  | .instruction .ldc n =>
    match d with
    | .legacy => decide (0 ≤ n ∧ n ≤ 31)
    | .twosComplement => decide (-16 ≤ n ∧ n ≤ 15)
  | .instruction _ n => decide (0 ≤ n ∧ n ≤ 31)
  | .constant n => decide (1 ≤ n ∧ n ≤ 31)

/-- The assembler: `MNEMONIC n` is `32 * opcode + (n mod 32)` (30_encoding.md R72). -/
def assemble (t : TextForm) : Word :=
  match t with
  | .halt => 0b00000000#8
  | .instruction m n => enc 8 (32 * m.opcode + n % 32)
  | .constant n => enc 8 n

end Sys2Proof.Machine
end

