-- ==== Sys2Proof/Safety.lean ====
section
/-! DEFINITION. What the claims call a good state and a good run. -/

namespace Sys2Proof.Machine

/-- The invariant of the state: the memory is in its canonical form, inside the 32 addresses of the bank
(20_memory.md R40, R45). The PC and the accumulator carry their bounds in their types. -/
abbrev StateInv (s : State) : Prop := Memory.wf s.mem

/-- A run of `n` steps comes to `t`: each step is applied to the state the one before left
(41_cycle.md R106). -/
def Reaches (n : Nat) (s t : State) : Prop := Sys2Proof.core.run n s = .next t

/-- A run that never halts: "every step is enabled" (41_cycle.md R106, 93_implementation_defined.md row 3). -/
def RunsForever (s : State) : Prop := ∀ n, ∃ t, Reaches n s t ∧ t.run = .running

/-- Two states that every observation of the core finds equal: the same registers, and the same word at
every address. -/
def SameView (s t : State) : Prop :=
  s.ac = t.ac ∧ s.pc = t.pc ∧ s.run = t.run ∧ ∀ a, s.readMem a = t.readMem a

end Sys2Proof.Machine
end

