-- ==== Sys2Proof/Certificates/Slice0/Obligations.lean ====
section
/-! DEFINITION. The statements for the provers. `signedDecode` is the open parameter `SIGNED_DECODE` (log
entry 1): a statement about the machine holds for both of its values. -/

open Sys2Proof Sys2Proof.Machine

/-! ### The eight instructions: result, frame and completion -/

/-- 42_data_transfer.md R120. LOD completes in every state: AC takes the addressed word, the PC advances
modulo 32, RUN and every word of memory stay. The last clause is R120's own Encoding bullet, whose opcode
number is the spec's decision D2 (30_encoding.md R63). -/
def Obligations.LodCopiesTheAddressedWord : Prop :=
  (∀ (a : Field5) (s : State), ∃ t, exec (.lod a) s = .next t ∧
    t.ac = s.readMem a ∧
    t.pc.toNat = (s.pc.toNat + 1) % 32 ∧
    t.run = s.run ∧
    ∀ b, t.readMem b = s.readMem b) ∧
  ∀ w : Word, w &&& 0xE0#8 = 0x20#8 → decode w = .lod (w.setWidth 5)

/-- 42_data_transfer.md R121. LDC completes in every state: AC takes `enc_8(s_5(a))`, which is the
zero-extended operand under `LEGACY` and the sign-extended one under `TWOS_COMPLEMENT`, and is never a
value from 32 to 239; the PC advances modulo 32; RUN and every word of memory stay. The last clause is
R121's own Encoding bullet, whose opcode number is the spec's decision D2 (30_encoding.md R63). -/
def Obligations.LdcLoadsTheReencodedImmediate : Prop :=
  (∀ (a : Field5) (s : State), ∃ t, exec (.ldc a) s = .next t ∧
    t.ac = enc 8 (sval signedDecode a) ∧
    t.ac = (match signedDecode with
      | .legacy => a.setWidth 8
      | .twosComplement => a.signExtend 8) ∧
    (t.ac.toNat < 32 ∨ 239 < t.ac.toNat) ∧
    t.pc.toNat = (s.pc.toNat + 1) % 32 ∧
    t.run = s.run ∧
    ∀ b, t.readMem b = s.readMem b) ∧
  ∀ w : Word, w &&& 0xE0#8 = 0x40#8 → decode w = .ldc (w.setWidth 5)

/-- 42_data_transfer.md R122. STO completes in every state: the word at `u_5(a)` becomes AC's bits, every
other word, AC and RUN stay, the PC advances modulo 32. The last clause is R122's own Encoding bullet,
whose opcode number is the spec's decision D2 (30_encoding.md R63). -/
def Obligations.StoWritesTheAddressedWordOnly : Prop :=
  (∀ (a : Field5) (s : State), ∃ t, exec (.sto a) s = .next t ∧
    t.readMem a = s.ac ∧
    (∀ b, b ≠ a → t.readMem b = s.readMem b) ∧
    t.ac = s.ac ∧
    t.pc.toNat = (s.pc.toNat + 1) % 32 ∧
    t.run = s.run) ∧
  ∀ w : Word, w &&& 0xE0#8 = 0x60#8 → decode w = .sto (w.setWidth 5)

/-- 43_arithmetic.md R130. ADD completes in every state: AC takes `enc_8(s_8(m) + s_8(AC))`, which is the sum
of the unsigned values modulo 256; the PC advances modulo 32; RUN and every word of memory stay. The last
clause is R130's own Encoding bullet, whose opcode number is the spec's decision D2 (30_encoding.md R63). -/
def Obligations.AddWrapsTheSignedSum : Prop :=
  (∀ (a : Field5) (s : State), ∃ t, exec (.add a) s = .next t ∧
    t.ac = enc 8 (sval signedDecode (s.readMem a) + sval signedDecode s.ac) ∧
    t.ac.toNat = ((s.readMem a).toNat + s.ac.toNat) % 256 ∧
    t.pc.toNat = (s.pc.toNat + 1) % 32 ∧
    t.run = s.run ∧
    ∀ b, t.readMem b = s.readMem b) ∧
  ∀ w : Word, w &&& 0xE0#8 = 0x80#8 → decode w = .add (w.setWidth 5)

/-- 43_arithmetic.md R131. SUB completes in every state: AC takes `enc_8(s_8(AC) - s_8(m))`, accumulator
minus memory, which is the difference of the unsigned values modulo 256; the PC advances modulo 32; RUN
and every word of memory stay. The last clause is R131's own Encoding bullet, whose opcode number is the
spec's decision D2 (30_encoding.md R63). -/
def Obligations.SubWrapsAccumulatorMinusMemory : Prop :=
  (∀ (a : Field5) (s : State), ∃ t, exec (.sub a) s = .next t ∧
    t.ac = enc 8 (sval signedDecode s.ac - sval signedDecode (s.readMem a)) ∧
    (t.ac.toNat : Int) = ((s.ac.toNat : Int) - ((s.readMem a).toNat : Int)) % 256 ∧
    t.pc.toNat = (s.pc.toNat + 1) % 32 ∧
    t.run = s.run ∧
    ∀ b, t.readMem b = s.readMem b) ∧
  ∀ w : Word, w &&& 0xE0#8 = 0xA0#8 → decode w = .sub (w.setWidth 5)

/-- 44_control_transfer.md R140. HLT completes in every state: RUN becomes Halted; the PC, AC and every word
of memory stay. The last clause is R140's own Encoding bullet: all 32 words, whatever their operand field
(opcode number: the spec's decision D2; operand ignored: its decision D16). -/
def Obligations.HltHaltsInPlace : Prop :=
  (∀ s : State, ∃ t, exec .hlt s = .next t ∧
    t.run = .halted ∧
    t.pc = s.pc ∧
    t.ac = s.ac ∧
    ∀ b, t.readMem b = s.readMem b) ∧
  ∀ w : Word, w &&& 0xE0#8 = 0x00#8 → decode w = .hlt

/-- 44_control_transfer.md R141. JMP completes in every state: the PC becomes the target exactly where
`s_8(AC) >= 0`, which under `LEGACY` is always and under `TWOS_COMPLEMENT` where `AC[7] = 0`; else it
advances modulo 32. AC, RUN and every word of memory stay. The last clause is R141's own Encoding bullet,
whose opcode number is the spec's decision D2 (30_encoding.md R63). -/
def Obligations.JmpTakenWhenNotNegative : Prop :=
  (∀ (a : Field5) (s : State), ∃ t, exec (.jmp a) s = .next t ∧
    t.pc.toNat = (if 0 ≤ sval signedDecode s.ac then a.toNat else (s.pc.toNat + 1) % 32) ∧
    (0 ≤ sval signedDecode s.ac ↔ (match signedDecode with
      | .legacy => True
      | .twosComplement => s.ac.getLsbD 7 = false)) ∧
    t.ac = s.ac ∧
    t.run = s.run ∧
    ∀ b, t.readMem b = s.readMem b) ∧
  ∀ w : Word, w &&& 0xE0#8 = 0xC0#8 → decode w = .jmp (w.setWidth 5)

/-- 44_control_transfer.md R142. JMZ completes in every state: the PC becomes the target exactly where
`s_8(AC) = 0`, which is where `AC = 00000000` under both values of the parameter; else it advances modulo
32. AC, RUN and every word of memory stay. The last clause is R142's own Encoding bullet, whose opcode
number is the spec's decision D2 (30_encoding.md R63). -/
def Obligations.JmzTakenWhenZero : Prop :=
  (∀ (a : Field5) (s : State), ∃ t, exec (.jmz a) s = .next t ∧
    t.pc.toNat = (if sval signedDecode s.ac = 0 then a.toNat else (s.pc.toNat + 1) % 32) ∧
    (sval signedDecode s.ac = 0 ↔ s.ac = 0b00000000#8) ∧
    t.ac = s.ac ∧
    t.run = s.run ∧
    ∀ b, t.readMem b = s.readMem b) ∧
  ∀ w : Word, w &&& 0xE0#8 = 0xE0#8 → decode w = .jmz (w.setWidth 5)

/-- 42_data_transfer.md section on LDC and 44_control_transfer.md section on JMP, value by value of the open
parameter (log entry 1): the machine's LDC and JMP are those of its own value; under `LEGACY` LDC
zero-extends and JMP is always taken; under `TWOS_COMPLEMENT` LDC sign-extends and JMP is taken where
`AC[7] = 0`. -/
def Obligations.LdcAndJmpUnderEachSignedDecode : Prop :=
  ∀ (a : Field5) (s : State),
    exec (.ldc a) s = ldcUnder signedDecode a s ∧
    exec (.jmp a) s = jmpUnder signedDecode a s ∧
    (∃ t, ldcUnder .legacy a s = .next t ∧ t.ac = a.setWidth 8) ∧
    (∃ t, ldcUnder .twosComplement a s = .next t ∧ t.ac = a.signExtend 8) ∧
    (∃ t, jmpUnder .legacy a s = .next t ∧ t.pc = a) ∧
    ∃ t, jmpUnder .twosComplement a s = .next t ∧
      t.pc.toNat = (if s.ac.getLsbD 7 = false then a.toNat else (s.pc.toNat + 1) % 32)

/-! ### The step -/

/-- 41_cycle.md R101: a step of a running machine runs the instruction decoded from the word at the PC, as the
memory stands at the start of the step. -/
def Obligations.StepRunsTheInstructionAtThePc : Prop :=
  ∀ s : State, s.run = .running → step s = exec (decode (s.readMem s.pc)) s

/-- The spec's decision D11 (41_cycle.md R105; log entry 4): a halted machine has no step, and no run goes on
from it. -/
def Obligations.HaltedMachineHasNoStep : Prop :=
  ∀ s : State, s.run = .halted →
    step s = .fault .halted ∧ ∀ n t, Reaches (n + 1) s t → False

/-- 60_exceptions.md R160: no instruction can fault, so every running machine steps. -/
def Obligations.NoInstructionFaults : Prop :=
  (∀ (i : Instr) (s : State), ∃ t, exec i s = .next t) ∧
  ∀ s : State, s.run = .running → ∃ t, step s = .next t

/-- 10_state.md R24: the run starts Running; only HLT writes Halted; no step writes Running, since a halted
state has no step; the host sees RUN as the halted output. -/
def Obligations.OnlyHltWritesTheRunState : Prop :=
  State.reset.run = .running ∧
  (∀ s t : State, step s = .next t →
    s.run = .running ∧
    (decode (s.readMem s.pc) = .hlt → t.run = .halted) ∧
    (decode (s.readMem s.pc) ≠ .hlt → t.run = .running)) ∧
  (∀ s t : State, s.run = .halted → step s ≠ .next t) ∧
  ∀ s : State, s.isHalted = true ↔ s.run = .halted

/-- 20_memory.md R42: a step's effect depends on the fetched word and, for LOD, ADD and SUB, on the word at
their operand address, and on no other word of memory; STO writes the word at its operand address, and
nothing else writes memory. -/
def Obligations.MemoryIsReachedByTheListedAccessesOnly : Prop :=
  ∀ s s' t : State,
    s.ac = s'.ac → s.pc = s'.pc → s.run = s'.run →
    s.readMem s.pc = s'.readMem s'.pc →
    (∀ a, (decode (s.readMem s.pc) = .lod a ∨ decode (s.readMem s.pc) = .add a ∨
        decode (s.readMem s.pc) = .sub a) → s.readMem a = s'.readMem a) →
    step s = .next t →
    ∃ t', step s' = .next t' ∧ t'.ac = t.ac ∧ t'.pc = t.pc ∧ t'.run = t.run ∧
      ∀ b, (decode (s.readMem s.pc) = .sto b → t.readMem b = s.ac ∧ t'.readMem b = s.ac) ∧
        (decode (s.readMem s.pc) ≠ .sto b →
          t.readMem b = s.readMem b ∧ t'.readMem b = s'.readMem b)

/-- 10_state.md section 1, the list of AC's writers: only LOD, LDC, ADD and SUB change the accumulator. -/
def Obligations.OnlyFourInstructionsChangeTheAccumulator : Prop :=
  ∀ s t : State, step s = .next t → t.ac ≠ s.ac →
    ∃ a, decode (s.readMem s.pc) = .lod a ∨ decode (s.readMem s.pc) = .ldc a ∨
      decode (s.readMem s.pc) = .add a ∨ decode (s.readMem s.pc) = .sub a

/-- 41_cycle.md R104: the PC update of every step. A HLT step keeps the PC; a taken jump leaves exactly its
target; every other step advances modulo 32. -/
def Obligations.PcUpdateEndsEveryStep : Prop :=
  ∀ s t : State, step s = .next t →
    match decode (s.readMem s.pc) with
    | .hlt => t.pc = s.pc
    | .jmp a =>
      if 0 ≤ sval signedDecode s.ac then t.pc = a else t.pc.toNat = (s.pc.toNat + 1) % 32
    | .jmz a =>
      if sval signedDecode s.ac = 0 then t.pc = a else t.pc.toNat = (s.pc.toNat + 1) % 32
    | .lod _ | .ldc _ | .sto _ | .add _ | .sub _ => t.pc.toNat = (s.pc.toNat + 1) % 32

/-- 41_cycle.md section 1: `step` is the spec's printed `Step`, over the array machine that a state stands for.
Of a halted state the printed `Step` is not defined, by the spec's decision D11; that `step` answers the
fault `halted` there is the model's DESIGN CHOICE of log entry 4. -/
def Obligations.StepRefinesThePrintedStep : Prop :=
  ∀ s : State,
    (s.run = .running → ∃ t, step s = .next t ∧
      Reference.step signedDecode (Reference.ofState s) = some (Reference.ofState t)) ∧
    (s.run = .halted → step s = .fault .halted ∧
      Reference.step signedDecode (Reference.ofState s) = none)

/-- An inference the spec marks as its own (00_scope.md R6): the spec's step gives the same result under both
values of `SIGNED_DECODE`, for every instruction but LDC (opcode 2) and JMP (opcode 6). -/
def Obligations.OnlyLdcAndJmpDependOnSignedDecode : Prop :=
  ∀ (m : Reference.ArrayState) (d e : SignedDecode),
    Reference.opcode (m.memory m.pc) ≠ 2 → Reference.opcode (m.memory m.pc) ≠ 6 →
    Reference.step d m = Reference.step e m

/-- An inference the spec marks as its own (20_memory.md R56): a STO to the next address is what the very next
step runs; a STO onto its own address completes as a STO and leaves the stored word there. -/
def Obligations.StoreIsSeenByTheVeryNextFetch : Prop :=
  (∀ (s : State) (a : Field5), s.run = .running → decode (s.readMem s.pc) = .sto a →
    a.toNat = (s.pc.toNat + 1) % 32 →
    ∃ t, step s = .next t ∧ step t = exec (decode s.ac) t) ∧
  ∀ s : State, s.run = .running → decode (s.readMem s.pc) = .sto s.pc →
    ∃ t, step s = .next t ∧ t.ac = s.ac ∧ t.readMem s.pc = s.ac ∧
      t.pc.toNat = (s.pc.toNat + 1) % 32

/-- 20_memory.md R43: after any sequence of writes, a read of an address returns the word of the most recent
write to it, or, if there is none, the word that was there before. -/
def Obligations.ReadReturnsTheMostRecentWrite : Prop :=
  ∀ (writes : List (Field5 × Word)) (s : State) (a : Field5),
    (writes.foldl (fun u c => u.writeMem c.1 c.2) s).readMem a =
      ((writes.reverse.find? fun c => c.1 == a).map Prod.snd).getD (s.readMem a)

/-- 44_control_transfer.md section on JMP and JMZ, corner cases: a taken jump to its own address leaves the
state as it is, so the run repeats that state forever. -/
def Obligations.TakenJumpToItselfRunsForever : Prop :=
  ∀ s : State, s.run = .running →
    ((decode (s.readMem s.pc) = .jmp s.pc ∧ 0 ≤ sval signedDecode s.ac) ∨
      (decode (s.readMem s.pc) = .jmz s.pc ∧ s.ac = 0b00000000#8)) →
    RunsForever s ∧ ∀ n, Reaches n s s

/-- An inference the spec marks as its own (70_reset_and_hazards.md R193): a JMP or JMZ to the next address,
taken or not, an LDC or LOD that rewrites AC with its value, and a STO to a word that already holds AC
change nothing but the PC, which advances by 1. -/
def Obligations.NearestFormsOfNoOpOnlyAdvanceThePc : Prop :=
  ∀ (a : Field5) (s : State) (i : Instr),
    ((i = .jmp a ∧ a.toNat = (s.pc.toNat + 1) % 32) ∨
      (i = .jmz a ∧ a.toNat = (s.pc.toNat + 1) % 32) ∨
      (i = .lod a ∧ s.readMem a = s.ac) ∨
      (i = .ldc a ∧ ldcImmediate signedDecode a = s.ac) ∨
      (i = .sto a ∧ s.readMem a = s.ac)) →
    ∃ t, exec i s = .next t ∧ t.ac = s.ac ∧ t.run = s.run ∧
      t.pc.toNat = (s.pc.toNat + 1) % 32 ∧ ∀ b, t.readMem b = s.readMem b

/-! ### Encoding -/

/-- Decoding inverts encoding: a list of instructions, each with any operand, written one after the other and
followed by anything, decodes back to itself. The opcode numbers do not matter here. -/
def Obligations.DecodingInvertsEncoding : Prop :=
  ∀ (is : List Instr) (rest : List Word),
    is.all Instr.wellFormed = true ∧
      decodeMany is.length (encodeAll is ++ rest) = .ok (is, rest)

/-- The spec's decision D16 (30_encoding.md R67; log entry 3): exactly the 32 words below 0x20 decode to HLT,
and every other word is the one encoding of what it decodes to. -/
def Obligations.EncodingInvertsDecodingButForHlt : Prop :=
  ∀ w : Word, (decode w = .hlt ↔ w.toNat < 32) ∧ (32 ≤ w.toNat → encode (decode w) = w)

/-- The opcode map of 30_encoding.md R63, whose numbers are the spec's decision D2 (log entry 2): every word
lies in exactly one row of the table, the row of the instruction it decodes to. -/
def Obligations.EveryWordIsInItsOwnRowOnly : Prop :=
  ∀ (w : Word) (k : Fin 8), (opcodeTable.get k).covers w = true ↔ k = (decode w).opcode

/-- Sanity, words written out bit by bit from 30_encoding.md R63 (numbers: decision D2) as 95_test_vectors.md
section 2.1 lists them, one or more for each instruction. -/
def Obligations.WrittenOutWordsDecode : Prop :=
  decode 0b00000000#8 = .hlt ∧ decode 0b00011111#8 = .hlt ∧
  decode 0b00100111#8 = .lod 7#5 ∧ decode 0b01000101#8 = .ldc 5#5 ∧
  decode 0b01011111#8 = .ldc 31#5 ∧ decode 0b01101010#8 = .sto 10#5 ∧
  decode 0b10010100#8 = .add 20#5 ∧ decode 0b10100011#8 = .sub 3#5 ∧
  decode 0b11001100#8 = .jmp 12#5 ∧ decode 0b11100110#8 = .jmz 6#5

/-- The model's own placing of a word (log entry 5): the next step of `s.withFetchWord 8 w` runs the
instruction the decoder reads from `w`; AC, the PC and every other word of memory are those of `s`. -/
def Obligations.PlacedWordIsWhatTheNextStepRuns : Prop :=
  ∀ (s : State) (w : Nat), w < 256 →
    ∃ i, decodeTableWord 8 w = some i ∧ i = decode (BitVec.ofNat 8 w) ∧
      step (s.withFetchWord 8 w) = exec i (s.withFetchWord 8 w) ∧
      (s.withFetchWord 8 w).ac = s.ac ∧ (s.withFetchWord 8 w).pc = s.pc ∧
      ∀ b, b ≠ s.pc → (s.withFetchWord 8 w).readMem b = s.readMem b

/-- The text forms of 30_encoding.md R71 and R72 (the spec's decisions D12 and D17), under both values of the
parameter: every word disassembles to a well-formed text that assembles back to it, and every well-formed
text assembles to a word that disassembles back to it. -/
def Obligations.AssemblerAndDisassemblerAgree : Prop :=
  ∀ d : SignedDecode,
    (∀ w : Word, (disassemble d w).wellFormed d = true ∧ assemble (disassemble d w) = w) ∧
    ∀ t : TextForm, t.wellFormed d = true → disassemble d (assemble t) = t

/-! ### The codec and the ALU -/

/-- 40_codec.md R81: the bits of `enc_n(x)` are `floor(x / 2^i) mod 2`; equivalently it is the unique n-bit
vector whose unsigned value is `x mod 2^n`, for negative `x` as well. -/
def Obligations.EncHasTheBitsOfTheInteger : Prop :=
  ∀ (n : Nat) (x : Int), 1 ≤ n →
    (∀ i, i < n → (enc n x).getLsbD i = decide (Int.fdiv x (2 ^ i) % 2 = 1)) ∧
    uval (enc n x) = x % 2 ^ n ∧
    ∀ v : BitVec n, uval v = x % 2 ^ n → v = enc n x

/-- 40_codec.md R82: `u_n(v)` is the sum of the weights `2^i` of the bits that are set, in 0..2^n−1. -/
def Obligations.UnsignedValueIsTheWeightedSum : Prop :=
  ∀ (n : Nat) (v : BitVec n),
    uval v = ∑ i : Fin n, (if v.getLsbD i then (2 : Int) ^ (i : Nat) else 0) ∧
    0 ≤ uval v ∧ uval v ≤ 2 ^ n - 1

/-- 40_codec.md R83: `s_n(v)` under each value of the parameter, for every width `n + 1`. -/
def Obligations.SignedValueIsThePrintedFormula : Prop :=
  ∀ (n : Nat) (v : BitVec (n + 1)),
    sval .legacy v = (if v.getLsbD n then (2 : Int) ^ n else 0) +
      ∑ i : Fin n, (if v.getLsbD i then (2 : Int) ^ (i : Nat) else 0) ∧
    sval .twosComplement v = -(if v.getLsbD n then (2 : Int) ^ n else 0) +
      ∑ i : Fin n, (if v.getLsbD i then (2 : Int) ^ (i : Nat) else 0)

/-- Inferences the spec marks as its own (40_codec.md R84, R85): under `LEGACY` the signed value is the
unsigned one; under `TWOS_COMPLEMENT` it is that less `2^n` where the top bit is set; the ranges. -/
def Obligations.SignedValueAgainstUnsignedValue : Prop :=
  ∀ (n : Nat) (v : BitVec (n + 1)),
    sval .legacy v = uval v ∧
    sval .twosComplement v = uval v - (if v.getLsbD n then (2 : Int) ^ (n + 1) else 0) ∧
    (0 ≤ sval .legacy v ∧ sval .legacy v ≤ 2 ^ (n + 1) - 1) ∧
    (-2 ^ n ≤ sval .twosComplement v ∧ sval .twosComplement v ≤ 2 ^ n - 1) ∧
    ∀ d, sval d v % 2 ^ (n + 1) = uval v % 2 ^ (n + 1)

/-- Inferences the spec marks as its own (40_codec.md R86): the round trips of the codec. -/
def Obligations.CodecRoundTrips : Prop :=
  ∀ (n : Nat) (d : SignedDecode),
    (∀ x : Int, uval (enc (n + 1) x) = x % 2 ^ (n + 1)) ∧
    (∀ v : BitVec (n + 1), enc (n + 1) (uval v) = v) ∧
    (∀ v : BitVec (n + 1), enc (n + 1) (sval d v) = v) ∧
    (∀ x y : Int, enc (n + 1) x = enc (n + 1) y ↔ x % 2 ^ (n + 1) = y % 2 ^ (n + 1)) ∧
    (∀ x : Int, 0 ≤ x → x ≤ 2 ^ (n + 1) - 1 → sval .legacy (enc (n + 1) x) = x) ∧
    ∀ x : Int, -2 ^ n ≤ x → x ≤ 2 ^ n - 1 → sval .twosComplement (enc (n + 1) x) = x

/-- Inferences the spec marks as its own (40_codec.md R87, R88): the ALU's sum and difference do not depend on
the parameter, and the bounds of the exact sum and difference. -/
def Obligations.AluResultsDoNotDependOnSignedDecode : Prop :=
  ∀ (d : SignedDecode) (m c : Word),
    enc 8 (sval d m + sval d c) = aluSum m c ∧
    enc 8 (sval d c - sval d m) = aluDifference c m ∧
    aluSum m c = m + c ∧ aluDifference c m = c - m ∧
    (-256 ≤ sval .twosComplement m + sval .twosComplement c ∧
      sval .twosComplement m + sval .twosComplement c ≤ 254) ∧
    (0 ≤ sval .legacy m + sval .legacy c ∧ sval .legacy m + sval .legacy c ≤ 510) ∧
    (-255 ≤ sval d c - sval d m ∧ sval d c - sval d m ≤ 255)

/-- Inferences the spec marks as its own (40_codec.md R90): the two tests under both values. -/
def Obligations.JumpTestsUnderBothSignedDecodes : Prop :=
  ∀ x : Word,
    (∀ d, isZero x = true ↔ sval d x = 0) ∧
    (isZero x = true ↔ x = 0b00000000#8) ∧
    isNonNegative .legacy x = true ∧
    (isNonNegative .twosComplement x = true ↔ x.getLsbD 7 = false)

/-- Inferences the spec marks as its own (40_codec.md R91, 42_data_transfer.md corner cases of LDC): the
immediate under each value of the parameter. -/
def Obligations.LdcImmediateUnderBothSignedDecodes : Prop :=
  ∀ a : Field5,
    ldcImmediate .legacy a = a.setWidth 8 ∧
    ldcImmediate .twosComplement a = a.signExtend 8 ∧
    (a.getLsbD 4 = false → ldcImmediate .twosComplement a = ldcImmediate .legacy a) ∧
    ∀ d, ¬ (32 ≤ (ldcImmediate d a).toNat ∧ (ldcImmediate d a).toNat ≤ 239)

/-! ### Reset, the start of a run, and the invariant -/

/-- 10_state.md R31 and 70_reset_and_hazards.md R180: the reset value of every piece of state, and its value
once an image of at most 32 words is loaded. -/
def Obligations.StartOfRunStateIsAsStated : Prop :=
  (State.reset.ac = 0b00000000#8 ∧ State.reset.pc = 0#5 ∧ State.reset.run = .running ∧
    ∀ a, State.reset.readMem a = 0b00000000#8) ∧
  ∀ image : List Word, image.length ≤ 32 →
    ∃ s, startRun image = some s ∧ s.ac = 0b00000000#8 ∧ s.pc = 0#5 ∧ s.run = .running ∧
      ∀ a : Field5, s.readMem a = image.getD a.toNat 0b00000000#8

/-- The model's reading of the spec's decision D7 (70_reset_and_hazards.md R181; log entry 6): an image of
more than 32 words starts no run. -/
def Obligations.LongerImageStartsNoRun : Prop :=
  ∀ image : List Word, 32 < image.length → startRun image = none

/-- An inference the spec marks as its own (70_reset_and_hazards.md R191) and 44_control_transfer.md's corner
case of HLT: with nothing loaded, the first step halts at address 0 and leaves the rest. -/
def Obligations.EmptyMemoryHaltsAtAddressZero : Prop :=
  startRun [] = some State.reset ∧ step State.reset = .next (State.reset.setRun .halted)

/-- The reset state meets the invariant. -/
def Obligations.ResetMeetsTheMemoryForm : Prop := StateInv State.reset

/-- Every step keeps the memory in its canonical form inside addresses 0..31 (20_memory.md R40, R45). -/
def Obligations.StepKeepsTheMemoryForm : Prop :=
  ∀ s t : State, StateInv s → step s = .next t → StateInv t

/-- Every image that can be presented starts in a state that meets the invariant. -/
def Obligations.StartOfRunMeetsTheMemoryForm : Prop :=
  ∀ (image : List Word) (s : State), startRun image = some s → StateInv s

/-- Every state a run reaches meets the invariant. -/
def Obligations.ReachedStatesMeetTheMemoryForm : Prop :=
  ∀ (image : List Word) (n : Nat) (s t : State),
    startRun image = some s → Reaches n s t → StateInv t

/-- The canonical form is canonical: two states that meet the invariant and look the same at every register
and address are the same state. -/
def Obligations.EqualViewsAreEqualStates : Prop :=
  ∀ s t : State, StateInv s → StateInv t → SameView s t → s = t

/-- An inference the spec marks as its own (41_cycle.md R107): a run depends on what its start state shows,
its registers and its words, and on nothing of how the memory is listed. -/
def Obligations.RunsDependOnTheViewOnly : Prop :=
  ∀ (n : Nat) (s s' t : State), SameView s s' → Reaches n s t →
    ∃ t', Reaches n s' t' ∧ SameView t t'

/-! ### The host's interface -/

/-- 70_reset_and_hazards.md section 2: the result of a halted state is the tuple (Memory, AC, s_8(AC), PC),
and a run that never halts has none. The clause about a run under a budget rests on R190, the spec's decision
D14, and on the model's DESIGN CHOICE of log entry 9: a machine that halts with its last budgeted step has
ended. -/
def Obligations.RunEndsExactlyAtAHaltedState : Prop :=
  (∀ (s : State) (r : RunResult), result s = some r ↔
    s.run = .halted ∧
    r.memOut = List.ofFn (fun a : Fin 32 => s.readMem (BitVec.ofFin a)) ∧
    r.acOut = s.ac ∧ r.acSigned = sval signedDecode s.ac ∧ r.pcOut = s.pc) ∧
  (∀ (n : Nat) (s : State) (r : RunResult), runUnder n s = .ended r ↔
    ∃ k t, k ≤ n ∧ Reaches k s t ∧ result t = some r) ∧
  ∀ s : State, RunsForever s → ∀ (n : Nat) (r : RunResult), runUnder n s ≠ .ended r

/-- The spec's decision D14 (70_reset_and_hazards.md R190): a budget that runs out is never a halt. The state
is the one after exactly that many steps, and it is still running: a machine halted by its last budgeted step
has ended, which is the model's DESIGN CHOICE of log entry 9. -/
def Obligations.ExhaustedBudgetIsNotAHalt : Prop :=
  ∀ (n : Nat) (s t : State), runUnder n s = .budgetExhausted t →
    t.run = .running ∧ Reaches n s t ∧ result t = none

/-- 70_reset_and_hazards.md section 2 (decision D14): the budget does not alter the run: a result reached
under a budget is the result under every larger one. -/
def Obligations.LargerBudgetKeepsTheResult : Prop :=
  ∀ (n k : Nat) (s : State) (r : RunResult),
    runUnder n s = .ended r → runUnder (n + k) s = .ended r

/-- 41_cycle.md section 2 and 60_exceptions.md section 1: under any budget, from any state, a run ends or
its budget runs out; the model's outcomes for a fault and a refusal (log entry 9) do not happen. -/
def Obligations.RunsEndOrExhaustTheirBudget : Prop :=
  ∀ (n : Nat) (s : State),
    (∃ r, runUnder n s = .ended r) ∨ ∃ t, runUnder n s = .budgetExhausted t

/-- 10_state.md section 2 and 70_reset_and_hazards.md R186 (decision D4): a started run that ends reports as
its PC the address of a HLT word of its final memory. -/
def Obligations.EndedRunReportsTheHltThatEndedIt : Prop :=
  ∀ (image : List Word) (s : State) (n : Nat) (r : RunResult),
    startRun image = some s → runUnder n s = .ended r →
    ∃ w, r.memOut[r.pcOut.toNat]? = some w ∧ decode w = .hlt
end

