-- ==== Sys2Proof/Laws/Codec.lean ====
section
/-! SUPPORT. The codec's functions against natural numbers and core's own bit vector operations. -/

namespace Sys2Proof.Machine

theorem uval_inj {n : Nat} {v w : BitVec n} (h : uval v = uval w) : v = w :=
  BitVec.eq_of_toNat_eq (by unfold uval at h; exact_mod_cast h)

theorem toNat_enc (n : Nat) (x : Int) : ((enc n x).toNat : Int) = x % 2 ^ n := by
  unfold enc
  have : (0 : Int) ≤ x % (2 ^ n : Nat) := Int.emod_nonneg _ (by positivity)
  rw [BitVec.toNat_ofInt, Int.toNat_of_nonneg this]
  simp

theorem msb_eq_top {n : Nat} (v : BitVec (n + 1)) : v.msb = v.getLsbD n := by
  simp [BitVec.msb_eq_getLsbD_last]

/-- The signed value as the top bit's weight and the rest. -/
theorem sval_succ (d : SignedDecode) {n : Nat} (v : BitVec (n + 1)) :
    sval d v = (if v.getLsbD n then topWeight d (n + 1) else 0) + ((v.toNat % 2 ^ n : Nat) : Int) := by
  unfold sval
  rw [msb_eq_top]
  cases v.getLsbD n <;> simp

end Sys2Proof.Machine
end

