-- ==== Sys2Proof/Laws/State.lean ====
section
/-! SUPPORT. One lemma per field per update of State. -/

namespace Sys2Proof.Machine

@[simp] theorem setAc_ac (s : State) (v : Word) : (s.setAc v).ac = v := rfl
@[simp] theorem setAc_pc (s : State) (v : Word) : (s.setAc v).pc = s.pc := rfl
@[simp] theorem setAc_run (s : State) (v : Word) : (s.setAc v).run = s.run := rfl
@[simp] theorem setAc_mem (s : State) (v : Word) : (s.setAc v).mem = s.mem := rfl

@[simp] theorem setPc_ac (s : State) (p : Field5) : (s.setPc p).ac = s.ac := rfl
@[simp] theorem setPc_pc (s : State) (p : Field5) : (s.setPc p).pc = p := rfl
@[simp] theorem setPc_run (s : State) (p : Field5) : (s.setPc p).run = s.run := rfl
@[simp] theorem setPc_mem (s : State) (p : Field5) : (s.setPc p).mem = s.mem := rfl

@[simp] theorem setRun_ac (s : State) (r : RunState) : (s.setRun r).ac = s.ac := rfl
@[simp] theorem setRun_pc (s : State) (r : RunState) : (s.setRun r).pc = s.pc := rfl
@[simp] theorem setRun_run (s : State) (r : RunState) : (s.setRun r).run = r := rfl
@[simp] theorem setRun_mem (s : State) (r : RunState) : (s.setRun r).mem = s.mem := rfl

@[simp] theorem writeMem_ac (s : State) (a : Field5) (v : Word) : (s.writeMem a v).ac = s.ac := rfl
@[simp] theorem writeMem_pc (s : State) (a : Field5) (v : Word) : (s.writeMem a v).pc = s.pc := rfl
@[simp] theorem writeMem_run (s : State) (a : Field5) (v : Word) : (s.writeMem a v).run = s.run := rfl
@[simp] theorem writeMem_mem (s : State) (a : Field5) (v : Word) :
    (s.writeMem a v).mem = Memory.put s.mem a.toNat v := rfl

@[simp] theorem setAc_readMem (s : State) (v : Word) (a : Field5) :
    (s.setAc v).readMem a = s.readMem a := rfl
@[simp] theorem setPc_readMem (s : State) (p a : Field5) : (s.setPc p).readMem a = s.readMem a := rfl
@[simp] theorem setRun_readMem (s : State) (r : RunState) (a : Field5) :
    (s.setRun r).readMem a = s.readMem a := rfl

end Sys2Proof.Machine
end

