-- ==== Sys2Proof/Laws/Memory.lean ====
section
/-! SUPPORT. What the memory operations do to a read of one word, and that they keep the canonical form. -/

namespace Sys2Proof.Machine

theorem get_drop_same (m : Memory) (a : Nat) :
    Memory.get (Memory.drop m a) a = Memory.unlisted := by
  induction m with
  | nil => rfl
  | cons c m ih =>
    by_cases h : c.1 = a
    · simpa [Memory.drop, h] using ih
    · simpa [Memory.drop, Memory.get, h, Ne.symm h] using ih

theorem get_drop_other (m : Memory) {a b : Nat} (h : b ≠ a) :
    Memory.get (Memory.drop m a) b = Memory.get m b := by
  induction m with
  | nil => rfl
  | cons c m ih =>
    by_cases hc : c.1 = a
    · simpa [Memory.drop, Memory.get, hc, h] using ih
    · by_cases hb : b = c.1
      · simp [Memory.drop, Memory.get, hc, hb]
      · simpa [Memory.drop, Memory.get, hc, hb] using ih

/-- An entry placed where there is none for its address is what a read of that address finds. -/
theorem get_place_same (m : Memory) (a : Nat) (v : Word) (h : ∀ c ∈ m, c.1 ≠ a) :
    Memory.get (Memory.place m a v) a = v := by
  induction m with
  | nil => simp [Memory.place, Memory.get]
  | cons c m ih =>
    have hc : a ≠ c.1 := Ne.symm (h c (by simp))
    have ih := ih fun d hd => h d (by simp [hd])
    by_cases hlt : a < c.1
    · simp [Memory.place, Memory.get, hlt]
    · simpa [Memory.place, Memory.get, hlt, hc] using ih

theorem get_place_other (m : Memory) {a b : Nat} (v : Word) (h : b ≠ a) :
    Memory.get (Memory.place m a v) b = Memory.get m b := by
  induction m with
  | nil => simp [Memory.place, Memory.get, h]
  | cons c m ih =>
    by_cases hlt : a < c.1
    · simp [Memory.place, Memory.get, hlt, h]
    · by_cases hb : b = c.1
      · simp [Memory.place, Memory.get, hlt, hb]
      · simpa [Memory.place, Memory.get, hlt, hb] using ih

theorem drop_lacks (m : Memory) (a : Nat) : ∀ c ∈ Memory.drop m a, c.1 ≠ a := by
  simp [Memory.drop]

/-- Read after write, same address, in every memory, canonical or not. -/
theorem get_put_same (m : Memory) (a : Nat) (v : Word) : Memory.get (Memory.put m a v) a = v := by
  unfold Memory.put
  split
  · rename_i h
    rw [get_drop_same, h]
  · exact get_place_same _ a v (drop_lacks m a)

/-- Read after write, another address, in every memory. -/
theorem get_put_other (m : Memory) {a b : Nat} (v : Word) (h : b ≠ a) :
    Memory.get (Memory.put m a v) b = Memory.get m b := by
  unfold Memory.put
  split
  · exact get_drop_other m h
  · rw [get_place_other _ v h, get_drop_other m h]

theorem toNat_ne {a b : Field5} (h : b ≠ a) : b.toNat ≠ a.toNat := fun e => h (BitVec.eq_of_toNat_eq e)

theorem readMem_writeMem_same (s : State) (a : Field5) (v : Word) : (s.writeMem a v).readMem a = v :=
  get_put_same _ _ _

theorem readMem_writeMem_other (s : State) {a b : Field5} (v : Word) (h : b ≠ a) :
    (s.writeMem a v).readMem b = s.readMem b :=
  get_put_other _ _ (toNat_ne h)

theorem mem_place {m : Memory} {a : Nat} {v : Word} {c : Host.Cell} (h : c ∈ Memory.place m a v) :
    c = (a, v) ∨ c ∈ m := by
  induction m with
  | nil => simpa [Memory.place] using h
  | cons d m ih =>
    by_cases hlt : a < d.1
    · simpa [Memory.place, hlt] using h
    · rcases List.mem_cons.1 (by simpa [Memory.place, hlt] using h) with h | h
      · exact .inr (by simp [h])
      · rcases ih h with h | h
        · exact .inl h
        · exact .inr (by simp [h])

theorem place_rising {m : Memory} {a : Nat} {v : Word} (hm : m.Pairwise (fun c d => c.1 < d.1))
    (ha : ∀ c ∈ m, c.1 ≠ a) : (Memory.place m a v).Pairwise (fun c d => c.1 < d.1) := by
  induction m with
  | nil => simp [Memory.place]
  | cons c m ih =>
    obtain ⟨hc, hm⟩ := List.pairwise_cons.1 hm
    have hca : c.1 ≠ a := ha c (by simp)
    by_cases hlt : a < c.1
    · simp only [Memory.place, hlt, if_true]
      refine List.pairwise_cons.2 ⟨fun d hd => ?_, List.pairwise_cons.2 ⟨hc, hm⟩⟩
      rcases List.mem_cons.1 hd with rfl | hd
      · exact hlt
      · exact lt_trans hlt (hc d hd)
    · simp only [Memory.place, hlt, if_false]
      refine List.pairwise_cons.2 ⟨fun d hd => ?_, ih hm fun d hd => ha d (by simp [hd])⟩
      rcases mem_place hd with rfl | hd
      · exact lt_of_le_of_ne (not_lt.1 hlt) hca
      · exact hc d hd

theorem drop_keeps_wf {m : Memory} (a : Nat) (hm : Memory.wf m) : Memory.wf (Memory.drop m a) :=
  ⟨hm.1.filter _, fun c hc => hm.2 c (List.mem_filter.1 hc).1⟩

/-- Every write inside the bank keeps the canonical form. -/
theorem put_keeps_wf {m : Memory} {a : Nat} (v : Word) (ha : a < Config.memWords) (hm : Memory.wf m) :
    Memory.wf (Memory.put m a v) := by
  have hd := drop_keeps_wf a hm
  unfold Memory.put
  split
  · exact hd
  · rename_i hv
    refine ⟨place_rising hd.1 (drop_lacks m a), fun c hc => ?_⟩
    rcases mem_place hc with rfl | hc
    · exact ⟨ha, hv⟩
    · exact hd.2 c hc

theorem writeMem_keeps_wf {s : State} (a : Field5) (v : Word) (hs : Memory.wf s.mem) :
    Memory.wf (s.writeMem a v).mem :=
  put_keeps_wf v a.isLt hs

/-- What a canonical memory lists, a read finds. -/
theorem get_of_mem {m : Memory} (hm : m.Pairwise (fun c d => c.1 < d.1)) {c : Host.Cell} (hc : c ∈ m) :
    Memory.get m c.1 = c.2 := by
  induction m with
  | nil => cases hc
  | cons d m ih =>
    obtain ⟨hd, hm⟩ := List.pairwise_cons.1 hm
    rcases List.mem_cons.1 hc with rfl | hc
    · simp [Memory.get]
    · simpa [Memory.get, (hd c hc).ne'] using ih hm hc

/-- What a read finds to differ from an unlisted word, the memory lists. -/
theorem mem_of_get {m : Memory} {a : Nat} (h : Memory.get m a ≠ Memory.unlisted) :
    (a, Memory.get m a) ∈ m := by
  induction m with
  | nil => exact absurd rfl h
  | cons c m ih =>
    by_cases ha : a = c.1
    · simp [Memory.get, ha]
    · simp only [Memory.get, ha, if_false] at h ⊢
      exact List.mem_cons_of_mem _ (ih h)

end Sys2Proof.Machine
end

