-- ==== Sys2Proof/Laws/Ops.lean ====
section
/-! SUPPORT. What the shared operations do, said once: the PC update, the end of a step, the jump. -/

namespace Sys2Proof.Machine

theorem toNat_nextPc (pc : Field5) : (nextPc pc).toNat = (pc.toNat + 1) % 32 := by
  simp [nextPc]

theorem nextPc_eq_add (pc : Field5) : nextPc pc = pc + 1 := by
  apply BitVec.eq_of_toNat_eq
  simp [nextPc, BitVec.toNat_add]

theorem updatePc_false (s : State) : updatePc false s = s.setPc (nextPc s.pc) := rfl
theorem updatePc_true (s : State) : updatePc true s = s := rfl

@[simp] theorem updatePc_ac (b : Bool) (s : State) : (updatePc b s).ac = s.ac := by cases b <;> rfl
@[simp] theorem updatePc_run (b : Bool) (s : State) : (updatePc b s).run = s.run := by cases b <;> rfl
@[simp] theorem updatePc_mem (b : Bool) (s : State) : (updatePc b s).mem = s.mem := by cases b <;> rfl
@[simp] theorem updatePc_readMem (b : Bool) (s : State) (a : Field5) :
    (updatePc b s).readMem a = s.readMem a := by cases b <;> rfl

/-- All that the end of a step without a jump does. -/
theorem completeStep_next {s t : State} (h : completeStep false s = .next t) :
    t = s.setPc (nextPc s.pc) := by
  cases h
  rfl

/-- All that a jump does: it writes the PC and nothing else. -/
theorem jumpWhen_next {c : Bool} {target : Field5} {s t : State} (h : jumpWhen c target s = .next t) :
    t = s.setPc (if c then target else nextPc s.pc) := by
  cases h
  cases c <;> rfl

/-- A jump as an equation. -/
theorem jumpWhen_eq (c : Bool) (target : Field5) (s : State) :
    jumpWhen c target s = .next (s.setPc (if c then target else nextPc s.pc)) := by
  cases c <;> rfl

end Sys2Proof.Machine
end

