-- ==== Sys2Proof/Laws/PerInstr.lean ====
section
/-! SUPPORT. Statements about every instruction as syntax, one lemma per constructor. -/

namespace Sys2Proof.Laws

/-- The word of an instruction lies in the instruction's own row of the opcode table, and in no other row
(30_encoding.md R63). -/
def OwnRow.Statement (i : Instr) : Prop :=
  ∀ k : Fin 8, (opcodeTable.get k).covers (encode i) = true ↔ k = i.opcode

theorem OwnRow.hlt : OwnRow.Statement .hlt := by unfold Statement; decide
theorem OwnRow.lod (a : Field5) : OwnRow.Statement (.lod a) := by
  revert a; unfold Statement; decide
theorem OwnRow.ldc (a : Field5) : OwnRow.Statement (.ldc a) := by
  revert a; unfold Statement; decide
theorem OwnRow.sto (a : Field5) : OwnRow.Statement (.sto a) := by
  revert a; unfold Statement; decide
theorem OwnRow.add (a : Field5) : OwnRow.Statement (.add a) := by
  revert a; unfold Statement; decide
theorem OwnRow.sub (a : Field5) : OwnRow.Statement (.sub a) := by
  revert a; unfold Statement; decide
theorem OwnRow.jmp (a : Field5) : OwnRow.Statement (.jmp a) := by
  revert a; unfold Statement; decide
theorem OwnRow.jmz (a : Field5) : OwnRow.Statement (.jmz a) := by
  revert a; unfold Statement; decide

end Sys2Proof.Laws
end

