-- ==== Sys2Proof/Laws/Step.lean ====
section
/-! SUPPORT. What a step can do, said once: every claim about all instructions goes through these. -/

namespace Sys2Proof.Machine

/-- The state that an instruction leaves, one case per instruction. -/
theorem exec_cases {i : Instr} {s t : State} (h : exec i s = .next t) :
    (i = .hlt ∧ t = s.setRun .halted) ∨
    (∃ a, i = .lod a ∧ t = (s.setAc (s.readMem a)).setPc (nextPc s.pc)) ∨
    (∃ a, i = .ldc a ∧ t = (s.setAc (ldcImmediate signedDecode a)).setPc (nextPc s.pc)) ∨
    (∃ a, i = .sto a ∧ t = (s.writeMem a s.ac).setPc (nextPc s.pc)) ∨
    (∃ a, i = .add a ∧ t = (s.setAc (aluSum (s.readMem a) s.ac)).setPc (nextPc s.pc)) ∨
    (∃ a, i = .sub a ∧ t = (s.setAc (aluDifference s.ac (s.readMem a))).setPc (nextPc s.pc)) ∨
    (∃ a, i = .jmp a ∧
      t = s.setPc (if isNonNegative signedDecode s.ac then a else nextPc s.pc)) ∨
    (∃ a, i = .jmz a ∧ t = s.setPc (if isZero s.ac then a else nextPc s.pc)) := by
  cases i with
  | hlt => cases h; exact .inl ⟨rfl, rfl⟩
  | lod a => exact .inr (.inl ⟨a, rfl, completeStep_next h⟩)
  | ldc a => exact .inr (.inr (.inl ⟨a, rfl, completeStep_next h⟩))
  | sto a => exact .inr (.inr (.inr (.inl ⟨a, rfl, completeStep_next h⟩)))
  | add a => exact .inr (.inr (.inr (.inr (.inl ⟨a, rfl, completeStep_next h⟩))))
  | sub a => exact .inr (.inr (.inr (.inr (.inr (.inl ⟨a, rfl, completeStep_next h⟩)))))
  | jmp a => exact .inr (.inr (.inr (.inr (.inr (.inr (.inl ⟨a, rfl, jumpWhen_next h⟩))))))
  | jmz a => exact .inr (.inr (.inr (.inr (.inr (.inr (.inr ⟨a, rfl, jumpWhen_next h⟩))))))

/-- A step that answers a next state ran the fetched instruction, on a running machine. -/
theorem step_next {s t : State} (h : step s = .next t) :
    s.run = .running ∧ exec (decode (fetch s)) s = .next t := by
  unfold step at h
  cases hr : s.run with
  | running => exact ⟨rfl, by simpa [hr] using h⟩
  | halted => simp [hr] at h

end Sys2Proof.Machine
end

