-- ==== Sys2Proof/Laws/Run.lean ====
section
/-! SUPPORT. How runs unfold, one step at a time. -/

namespace Sys2Proof.Machine

theorem core_run_succ (M : Host.Core) (n : Nat) (s : M.State) :
    M.run (n + 1) s = (match M.step s with
      | .next t => M.run n t
      | .fault r => .fault r
      | .refused r => .refused r) := by
  cases h : M.step s <;> simp [Host.Core.run, h]

/-- A run of one more step starts with the step. -/
theorem reaches_succ {n : Nat} {s u t : State} (h : step s = .next u) :
    Reaches (n + 1) s t ↔ Reaches n u t := by
  have h : Sys2Proof.core.step s = .next u := h
  have e := core_run_succ Sys2Proof.core n s
  rw [h] at e
  unfold Reaches
  rw [e]

/-- No run goes on from a state that has no step. -/
theorem not_reaches_of_fault {n : Nat} {s t : State} {r : Fault} (h : step s = .fault r) :
    ¬ Reaches (n + 1) s t := by
  have h : Sys2Proof.core.step s = .fault r := h
  have e := core_run_succ Sys2Proof.core n s
  rw [h] at e
  intro hr
  exact nomatch e.symm.trans hr

theorem result_of_running {s : State} (h : s.run = .running) : result s = none := by
  simp [result, h]

theorem result_of_halted {s : State} (h : s.run = .halted) :
    result s = some ⟨s.memOut, s.ac, sval signedDecode s.ac, s.pc⟩ := by
  simp [result, h]

theorem runUnder_of_result {n : Nat} {s : State} {r : RunResult} (h : result s = some r) :
    runUnder n s = .ended r := by
  cases n <;> simp [runUnder, h]

theorem runUnder_zero {s : State} (h : s.run = .running) : runUnder 0 s = .budgetExhausted s := by
  simp [runUnder, result_of_running h]

theorem runUnder_succ {n : Nat} {s t : State} (h : s.run = .running) (ht : step s = .next t) :
    runUnder (n + 1) s = runUnder n t := by
  simp [runUnder, result_of_running h, ht]

/-- Loading an image leaves the addresses below its first one as they were. -/
theorem get_loadFrom_below (image : List Word) (m : Memory) {k b : Nat} (h : b < k) :
    Memory.get (Memory.loadFrom m k image) b = Memory.get m b := by
  induction image generalizing m k with
  | nil => rfl
  | cons w image ih =>
    rw [Memory.loadFrom, ih _ (by omega), get_put_other _ _ (by omega)]

/-- Loading an image inside the bank keeps the canonical form. -/
theorem loadFrom_keeps_wf (image : List Word) {m : Memory} {k : Nat} (h : k + image.length ≤ 32)
    (hm : Memory.wf m) : Memory.wf (Memory.loadFrom m k image) := by
  induction image generalizing m k with
  | nil => exact hm
  | cons w image ih =>
    simp only [List.length_cons] at h
    exact ih (by omega) (put_keeps_wf _ (show k < 32 by omega) hm)

end Sys2Proof.Machine
end

