-- ==== Sys2Proof/Tests/Slice0.lean ====
section
/-! SUPPORT. The model's own tests. Every expected result is a row of 95_test_vectors.md or an example of an
instruction's rule, by hand. The witness theorems show that the hypotheses of each statement can be met
together. -/

namespace Sys2Proof.Tests

open Sys2Proof Sys2Proof.Machine

/-- A running machine with this accumulator, program counter and memory. -/
def at_ (ac : Word) (pc : Field5) (mem : Memory) : State := ⟨ac, pc, .running, mem⟩

/-- The accumulator and the program counter that an outcome leaves. -/
def acPc (o : Host.Outcome State Fault Refusal) : Option (Word × Field5) :=
  match o with
  | .next t => some (t.ac, t.pc)
  | .fault _ => none
  | .refused _ => none

/-- The state that an outcome leaves. -/
def after (o : Host.Outcome State Fault Refusal) : Option State :=
  match o with
  | .next t => some t
  | .fault _ => none
  | .refused _ => none

/-! ### Decoding: words written out from 30_encoding.md R63 (95_test_vectors.md 2.1) -/

theorem test_decode_hlt : decode 0b00000000#8 = .hlt ∧ decode 0b00000111#8 = .hlt ∧
    decode 0b00011111#8 = .hlt := by decide
theorem test_decode_lod : decode 0b00100111#8 = .lod 7#5 := by decide
theorem test_decode_ldc : decode 0b01000101#8 = .ldc 5#5 ∧ decode 0b01011111#8 = .ldc 31#5 := by decide
theorem test_decode_sto : decode 0b01101010#8 = .sto 10#5 := by decide
theorem test_decode_add : decode 0b10010100#8 = .add 20#5 := by decide
theorem test_decode_sub : decode 0b10100011#8 = .sub 3#5 := by decide
theorem test_decode_jmp : decode 0b11001100#8 = .jmp 12#5 := by decide
theorem test_decode_jmz : decode 0b11100110#8 = .jmz 6#5 ∧ decode 0b11111111#8 = .jmz 31#5 := by decide

theorem test_encode_words : encode (.ldc 5#5) = 0b01000101#8 ∧ encode (.sto 10#5) = 0b01101010#8 ∧
    encode .hlt = 0b00000000#8 := by decide

theorem test_decode_no_byte : (match decodeBytes [] with | .error e => some e | .ok _ => none) =
    some DecodeError.noByte := by decide

theorem test_decode_table_word : decodeTableWord 8 0x94 = some (.add 20#5) ∧
    decodeTableWord 16 0x94 = none := by decide

/-! ### Ill-formed terms are refused -/

theorem test_image_of_33_words_refused : imageWellFormed (List.replicate 33 0#8) = false ∧
    imageWellFormed (List.replicate 32 0#8) = true := by decide
theorem test_instruction_well_formed : Instr.wellFormed (.jmz 31#5) = true := by decide
theorem test_memory_unsorted_refused : ¬ Memory.wf [(3, 1#8), (2, 1#8)] := by decide
theorem test_memory_repeat_refused : ¬ Memory.wf [(3, 1#8), (3, 2#8)] := by decide
theorem test_memory_zero_entry_refused : ¬ Memory.wf [(3, 0#8)] := by decide
theorem test_memory_address_32_refused : ¬ Memory.wf [(32, 1#8)] ∧ Memory.wf [(31, 1#8)] := by decide
theorem test_text_hlt_operand_refused :
    TextForm.wellFormed .legacy (.instruction .hlt 3) = false := by decide
theorem test_text_ldc_ranges :
    TextForm.wellFormed .legacy (.instruction .ldc (-1)) = false ∧
    TextForm.wellFormed .legacy (.instruction .ldc 32) = false ∧
    TextForm.wellFormed .twosComplement (.instruction .ldc 16) = false ∧
    TextForm.wellFormed .twosComplement (.instruction .ldc (-17)) = false := by decide
theorem test_text_other_ranges :
    TextForm.wellFormed .legacy (.instruction .jmp 32) = false ∧
    TextForm.wellFormed .legacy (.constant 0) = false := by decide

/-! ### One step of each instruction (95_test_vectors.md 2.4 to 2.8) -/

theorem test_hlt_at_31_keeps_the_pc :
    after (step (at_ 9#8 31#5 [(31, 0b00011111#8)])) =
      some ⟨9#8, 31#5, .halted, [(31, 0b00011111#8)]⟩ := by decide
theorem test_lod_own_word : acPc (step (at_ 0#8 5#5 [(5, 0b00100101#8)])) = some (0b00100101#8, 6#5) := by
  decide
theorem test_lod_wraps_the_pc :
    acPc (step (at_ 0#8 31#5 [(0, 0b11111111#8), (31, 0b00100000#8)])) = some (0b11111111#8, 0#5) := by
  decide
theorem test_ldc_5 : acPc (step (at_ 0#8 0#5 [(0, 0b01000101#8)])) = some (0b00000101#8, 1#5) := by decide
theorem test_ldc_31_under_both :
    acPc (ldcUnder .legacy 31#5 (at_ 0#8 31#5 [])) = some (0b00011111#8, 0#5) ∧
    acPc (ldcUnder .twosComplement 31#5 (at_ 0#8 31#5 [])) = some (0b11111111#8, 0#5) := by decide
theorem test_sto_10 :
    after (step (at_ 0b00000011#8 1#5 [(1, 0b01101010#8)])) =
      some (at_ 0b00000011#8 2#5 [(1, 0b01101010#8), (10, 0b00000011#8)]) := by decide
theorem test_sto_zero_onto_itself :
    after (step (at_ 0#8 6#5 [(6, 0b01100110#8)])) = some (at_ 0#8 7#5 []) := by decide
theorem test_add_wraps :
    acPc (step (at_ 0b11111111#8 0#5 [(0, 0b10010100#8), (20, 0b00000001#8)])) = some (0#8, 1#5) := by decide
theorem test_add_own_word :
    acPc (step (at_ 0b10000011#8 3#5 [(3, 0b10000011#8)])) = some (0b00000110#8, 4#5) := by decide
theorem test_sub_is_accumulator_minus_memory :
    acPc (exec (.sub 9#5) (at_ 5#8 0#5 [(9, 2#8)])) = some (0b00000011#8, 1#5) := by decide
theorem test_sub_wraps :
    acPc (exec (.sub 9#5) (at_ 2#8 0#5 [(9, 5#8)])) = some (0b11111101#8, 1#5) := by decide
theorem test_jmp_taken :
    acPc (step (at_ 0b01111111#8 3#5 [(3, 0b11001100#8)])) = some (0b01111111#8, 12#5) := by decide
theorem test_jmp_negative_under_both :
    acPc (jmpUnder .legacy 5#5 (at_ 0b10000000#8 31#5 [])) = some (0b10000000#8, 5#5) ∧
    acPc (jmpUnder .twosComplement 5#5 (at_ 0b10000000#8 31#5 [])) = some (0b10000000#8, 0#5) := by decide
theorem test_jmz_taken :
    acPc (step (at_ 0#8 1#5 [(1, 0b11100110#8)])) = some (0#8, 6#5) := by decide
theorem test_jmz_0x80_not_taken_wraps :
    acPc (exec (.jmz 5#5) (at_ 0b10000000#8 31#5 [])) = some (0b10000000#8, 0#5) := by decide

theorem test_halted_has_no_step : step ⟨0#8, 3#5, .halted, []⟩ = .fault .halted := rfl

/-! ### The codec (95_test_vectors.md 2.2, 2.3) and the text forms (2.1) -/

theorem test_enc_8 : enc 8 300 = 0b00101100#8 ∧ enc 8 (-1) = 0b11111111#8 ∧ enc 8 (-129) = 0b01111111#8 ∧
    enc 8 (-300) = 0b11010100#8 := by decide
theorem test_signed_8 : sval .legacy 0b10000001#8 = 129 ∧ sval .twosComplement 0b10000001#8 = -127 ∧
    sval .legacy 0b01111111#8 = 127 ∧ sval .twosComplement 0b01111111#8 = 127 := by decide
theorem test_disassemble :
    disassemble .legacy 0b01011111#8 = .instruction .ldc 31 ∧
    disassemble .twosComplement 0b01011111#8 = .instruction .ldc (-1) ∧
    disassemble .legacy 0b00000111#8 = .constant 7 ∧ disassemble .legacy 0#8 = .halt := by decide

/-! ### The host's interface -/

theorem test_start_places_the_image :
    startRun [0b01000101#8, 0#8, 7#8] = some (at_ 0#8 0#5 [(0, 0b01000101#8), (2, 7#8)]) := by decide
theorem test_exhausted_budget : runUnder 1 (at_ 0#8 9#5 [(9, 0b11101001#8)]) =
    .budgetExhausted (at_ 0#8 9#5 [(9, 0b11101001#8)]) := by decide

/-! ### Witnesses: the hypotheses of every statement can be met -/

/-- A machine about to run `w`. -/
def aboutTo (ac : Word) (w : Word) : State := at_ ac 3#5 [(3, w)]

theorem witness_encoding_clauses :
    (0b00111111#8 &&& 0xE0#8 = 0x20#8) ∧ (0b01011111#8 &&& 0xE0#8 = 0x40#8) ∧
    (0b01111111#8 &&& 0xE0#8 = 0x60#8) ∧ (0b10011111#8 &&& 0xE0#8 = 0x80#8) ∧
    (0b10111111#8 &&& 0xE0#8 = 0xA0#8) ∧ (0b00011111#8 &&& 0xE0#8 = 0x00#8) ∧
    (0b11011111#8 &&& 0xE0#8 = 0xC0#8) ∧ (0b11111111#8 &&& 0xE0#8 = 0xE0#8) := by decide

theorem witness_running : State.reset.run = .running := rfl

theorem witness_halted : (State.reset.setRun .halted).run = .halted := rfl

theorem witness_step_of_hlt :
    step State.reset = .next (State.reset.setRun .halted) ∧
      decode (State.reset.readMem State.reset.pc) = .hlt := ⟨rfl, by decide⟩

theorem witness_step_of_other :
    step (aboutTo 1#8 0b01000101#8) = .next (at_ 5#8 4#5 [(3, 0b01000101#8)]) ∧
      decode ((aboutTo 1#8 0b01000101#8).readMem 3#5) ≠ .hlt ∧
      (at_ 5#8 4#5 [(3, 0b01000101#8)]).ac ≠ (aboutTo 1#8 0b01000101#8).ac := ⟨rfl, by decide, by decide⟩

theorem witness_listed_accesses :
    let s := at_ 0#8 3#5 [(3, 0b00100111#8), (7, 1#8), (9, 2#8)]
    let s' := at_ 0#8 3#5 [(3, 0b00100111#8), (7, 1#8)]
    s.readMem s.pc = s'.readMem s'.pc ∧ decode (s.readMem s.pc) = .lod 7#5 ∧
      s.readMem 7#5 = s'.readMem 7#5 ∧ s.readMem 9#5 ≠ s'.readMem 9#5 ∧
      (after (step s)).isSome = true := by decide

theorem witness_listed_accesses_sto :
    let s := at_ 1#8 3#5 [(3, 0b01100111#8)]
    decode (s.readMem s.pc) = .sto 7#5 ∧ decode (s.readMem s.pc) ≠ .sto 8#5 ∧
      (after (step s)).isSome = true := by decide

theorem witness_opcode_not_ldc_nor_jmp :
    let m := Reference.ofState State.reset
    Reference.opcode (m.memory m.pc) ≠ 2 ∧ Reference.opcode (m.memory m.pc) ≠ 6 := by decide

/-- At the top of memory: STO 0 at address 31, so the next address is 0. -/
theorem witness_store_to_next :
    let s := at_ 7#8 31#5 [(31, 0b01100000#8)]
    s.run = .running ∧ decode (s.readMem s.pc) = .sto 0#5 ∧
      (0#5 : Field5).toNat = (s.pc.toNat + 1) % 32 := by decide

theorem witness_store_to_itself :
    let s := at_ 7#8 31#5 [(31, 0b01111111#8)]
    s.run = .running ∧ decode (s.readMem s.pc) = .sto s.pc := by decide

theorem witness_jmp_to_itself :
    let s := at_ 127#8 3#5 [(3, 0b11000011#8)]
    s.run = .running ∧ decode (s.readMem s.pc) = .jmp s.pc ∧ 0 ≤ sval signedDecode s.ac := by decide

theorem witness_jmz_to_itself :
    let s := at_ 0#8 3#5 [(3, 0b11100011#8)]
    s.run = .running ∧ decode (s.readMem s.pc) = .jmz s.pc ∧ s.ac = 0b00000000#8 := by decide

/-- The premises of the five near no-ops, the jumps at address 31. -/
theorem witness_near_no_ops :
    (0#5 : Field5).toNat = ((at_ 5#8 31#5 []).pc.toNat + 1) % 32 ∧
    (at_ 5#8 3#5 [(9, 5#8)]).readMem 9#5 = (at_ 5#8 3#5 [(9, 5#8)]).ac ∧
    ldcImmediate signedDecode 5#5 = (at_ 5#8 3#5 []).ac := by decide

theorem witness_word_above_hlt : 32 ≤ (0x20#8 : Word).toNat ∧ (0xFF : Nat) < 256 := by decide

theorem witness_text_well_formed :
    TextForm.wellFormed .legacy (.instruction .ldc 31) = true ∧
    TextForm.wellFormed .twosComplement (.instruction .ldc (-16)) = true ∧
    TextForm.wellFormed .twosComplement (.constant 31) = true := by decide

theorem witness_enc_bounds :
    (1 ≤ 1 ∧ 0 < 1) ∧ uval 0b1#1 = (-1 : Int) % 2 ^ 1 ∧
    ((0 : Int) ≤ 2 ^ (7 + 1) - 1) ∧ (-2 ^ 7 ≤ (-128 : Int) ∧ (-128 : Int) ≤ 2 ^ 7 - 1) := by decide

theorem witness_short_immediate : (15#5 : Field5).getLsbD 4 = false := by decide

theorem witness_full_image : (List.replicate 32 0xFF#8 : List Word).length ≤ 32 ∧
    32 < (List.replicate 33 0xFF#8 : List Word).length := by decide

theorem witness_invariant_step :
    let s := at_ 1#8 3#5 [(3, 0b01111111#8)]
    StateInv s ∧ after (step s) = some (at_ 1#8 4#5 [(3, 0b01111111#8), (31, 1#8)]) := by decide

theorem witness_started_run :
    startRun [0b01000101#8] = some (at_ 0#8 0#5 [(0, 0b01000101#8)]) ∧
      Reaches 1 (at_ 0#8 0#5 [(0, 0b01000101#8)]) (at_ 5#8 1#5 [(0, 0b01000101#8)]) := ⟨by decide, rfl⟩

theorem witness_equal_views :
    StateInv (at_ 1#8 0#5 [(3, 2#8)]) ∧ SameView (at_ 1#8 0#5 [(3, 2#8)]) (at_ 1#8 0#5 [(3, 2#8)]) :=
  ⟨by decide, rfl, rfl, rfl, fun _ => rfl⟩

/-- Two different listings of one view, and a run from one of them. -/
theorem witness_same_view_other_listing :
    SameView (at_ 0#8 0#5 [(5, 0#8)]) (at_ 0#8 0#5 []) ∧ at_ 0#8 0#5 [(5, 0#8)] ≠ at_ 0#8 0#5 [] ∧
      Reaches 1 (at_ 0#8 0#5 [(5, 0#8)]) ((at_ 0#8 0#5 [(5, 0#8)]).setRun .halted) :=
  ⟨⟨rfl, rfl, rfl, by decide⟩, by decide, rfl⟩

theorem witness_ended_run : ∃ r, runUnder 1 State.reset = .ended r ∧ r.pcOut = 0#5 ∧ r.acSigned = 0 :=
  ⟨_, rfl, rfl, by decide⟩

theorem witness_reached_result :
    Reaches 1 State.reset (State.reset.setRun .halted) ∧
      (result (State.reset.setRun .halted)).isSome = true := ⟨rfl, rfl⟩

theorem reaches_itself {s : State} (h : step s = .next s) (n : Nat) : Reaches n s s := by
  induction n with
  | zero => rfl
  | succ n ih => exact (reaches_succ h).2 ih

theorem witness_runs_forever : RunsForever (at_ 0#8 3#5 [(3, 0b11100011#8)]) :=
  fun n => ⟨_, reaches_itself rfl n, rfl⟩

end Sys2Proof.Tests
end

section
/-! PROOFS. The state: the start of a run (10_state.md R31) and the run state (R24). -/

namespace Sys2Proof.Machine

/-- Loading an image, read at and above its first address: the image's word, or, past the image's end, the
word that was there before. -/
theorem get_loadFrom_add (image : List Word) (m : Memory) (k i : Nat) :
    Memory.get (Memory.loadFrom m k image) (k + i) = image.getD i (Memory.get m (k + i)) := by
  induction image generalizing m k i with
  | nil => simp [Memory.loadFrom]
  | cons w image ih =>
    cases i with
    | zero =>
      calc Memory.get (Memory.loadFrom (Memory.put m k w) (k + 1) image) k
          = Memory.get (Memory.put m k w) k := get_loadFrom_below image _ (Nat.lt_succ_self k)
        _ = w := get_put_same m k w
    | succ i =>
      have hi : k + (i + 1) = k + 1 + i := by omega
      have hput : Memory.get (Memory.put m k w) (k + 1 + i) = Memory.get m (k + 1 + i) :=
        get_put_other m w (by omega)
      simp only [Memory.loadFrom, hi, ih, hput, List.getD_cons_succ]

/-- Every word reads `00000000` after reset (10_state.md R31). -/
@[simp] theorem readMem_reset (a : Field5) : State.reset.readMem a = 0b00000000#8 := rfl

/-- An image that fits the bank starts a run in the reset state, with the image loaded from address 0. -/
theorem startRun_of_length_le {image : List Word} (h : image.length ≤ 32) :
    startRun image = some { State.reset with mem := Memory.loadFrom State.reset.mem 0 image } :=
  if_pos (decide_eq_true h)

/-- Settles O37: the image's words are read back by induction on the image (`get_loadFrom_add`). -/
theorem startOfRunStateIsAsStated : Obligations.StartOfRunStateIsAsStated := by
  refine ⟨⟨rfl, rfl, rfl, readMem_reset⟩, fun image h => ?_⟩
  refine ⟨_, startRun_of_length_le h, rfl, rfl, rfl, fun a => ?_⟩
  have hload := get_loadFrom_add image State.reset.mem 0 a.toNat
  rw [Nat.zero_add] at hload
  exact hload

/-- HLT leaves the machine Halted. -/
theorem exec_hlt_run {s t : State} (h : exec .hlt s = .next t) : t.run = .halted := by
  cases h
  rfl

/-- Every instruction but HLT leaves `RUN` as it was. -/
theorem exec_run_of_ne_hlt {i : Instr} {s t : State} (hi : i ≠ .hlt) (h : exec i s = .next t) :
    t.run = s.run := by
  rcases exec_cases h with ⟨rfl, -⟩ | ⟨a, -, rfl⟩ | ⟨a, -, rfl⟩ | ⟨a, -, rfl⟩ | ⟨a, -, rfl⟩ |
    ⟨a, -, rfl⟩ | ⟨a, -, rfl⟩ | ⟨a, -, rfl⟩
  case inl => exact absurd rfl hi
  all_goals rfl

/-- A halted state answers no next state. -/
theorem step_ne_next_of_halted {s : State} (t : State) (h : s.run = .halted) : step s ≠ .next t := by
  intro hstep
  obtain ⟨hrun, -⟩ := step_next hstep
  exact nomatch hrun.symm.trans h

@[simp] theorem isHalted_iff (s : State) : s.isHalted = true ↔ s.run = .halted :=
  decide_eq_true_iff

/-- Settles O13, from what a step can do (`step_next`) and what an instruction does to `RUN`. -/
theorem onlyHltWritesTheRunState : Obligations.OnlyHltWritesTheRunState := by
  refine ⟨rfl, fun s t h => ?_, fun _ t => step_ne_next_of_halted t, isHalted_iff⟩
  obtain ⟨hrun, hexec⟩ := step_next h
  refine ⟨hrun, fun hhlt => ?_, fun hne => (exec_run_of_ne_hlt hne hexec).trans hrun⟩
  exact exec_hlt_run (hhlt ▸ hexec : exec .hlt s = .next t)

end Sys2Proof.Machine
end

section
/-! PROOFS. Memory: reads after writes (20_memory.md R43) and the accesses of a step (R42). -/

namespace Sys2Proof.Machine

/-! ### Reads after a sequence of writes -/

/-- Settles O20, by induction on the writes from the last one back. -/
theorem readReturnsTheMostRecentWrite : Obligations.ReadReturnsTheMostRecentWrite := by
  intro writes s a
  induction writes using List.reverseRecOn with
  | nil => rfl
  | append_singleton writes c ih =>
    obtain ⟨b, v⟩ := c
    rw [List.foldl_append, List.reverse_append]
    by_cases hb : b = a
    · subst hb
      simpa using readMem_writeMem_same _ b v
    · simpa [hb] using (readMem_writeMem_other _ v (Ne.symm hb)).trans ih

/-! ### States with equal registers

What an instruction does to the registers is a function of the registers and of the word it reads, so it
takes two states with equal registers to two states with equal registers. -/

/-- Two states hold the same in every register; of their memories nothing is said. -/
structure SameRegisters (s s' : State) : Prop where
  ac : s.ac = s'.ac
  pc : s.pc = s'.pc
  run : s.run = s'.run

namespace SameRegisters

variable {s s' t : State}

theorem setAc (h : SameRegisters s s') {v v' : Word} (hv : v = v') :
    SameRegisters (s.setAc v) (s'.setAc v') :=
  ⟨hv, h.pc, h.run⟩

theorem setPc (h : SameRegisters s s') {p p' : Field5} (hp : p = p') :
    SameRegisters (s.setPc p) (s'.setPc p') :=
  ⟨h.ac, hp, h.run⟩

theorem setRun (h : SameRegisters s s') (r : RunState) :
    SameRegisters (s.setRun r) (s'.setRun r) :=
  ⟨h.ac, h.pc, rfl⟩

theorem writeMem (h : SameRegisters s s') (a : Field5) (v v' : Word) :
    SameRegisters (s.writeMem a v) (s'.writeMem a v') :=
  ⟨h.ac, h.pc, h.run⟩

theorem after_completeStep (h : SameRegisters s s') (ht : completeStep false s = .next t) :
    ∃ t', completeStep false s' = .next t' ∧ SameRegisters t t' := by
  obtain rfl := completeStep_next ht
  exact ⟨_, rfl, h.setPc (congrArg nextPc h.pc)⟩

theorem after_jumpWhen (h : SameRegisters s s') {test : Word → Bool} {target : Field5}
    (ht : jumpWhen (test s.ac) target s = .next t) :
    ∃ t', jumpWhen (test s'.ac) target s' = .next t' ∧ SameRegisters t t' := by
  obtain rfl := jumpWhen_next ht
  exact ⟨_, jumpWhen_eq _ _ _, h.setPc (by rw [h.ac, h.pc])⟩

/-- The words that LOD, ADD and SUB read are all that the registers take from memory (20_memory.md R42). -/
theorem after_exec (h : SameRegisters s s') {i : Instr}
    (hword : ∀ a, (i = .lod a ∨ i = .add a ∨ i = .sub a) → s.readMem a = s'.readMem a)
    (ht : exec i s = .next t) : ∃ t', exec i s' = .next t' ∧ SameRegisters t t' := by
  cases i with
  | hlt =>
    cases ht
    exact ⟨_, rfl, h.setRun .halted⟩
  | lod a => exact (h.setAc (hword a (.inl rfl))).after_completeStep ht
  | ldc a => exact (h.setAc rfl).after_completeStep ht
  | sto a => exact (h.writeMem a s.ac s'.ac).after_completeStep ht
  | add a => exact (h.setAc (congrArg₂ aluSum (hword a (.inr (.inl rfl))) h.ac)).after_completeStep ht
  | sub a =>
    exact (h.setAc (congrArg₂ aluDifference h.ac (hword a (.inr (.inr rfl))))).after_completeStep ht
  | jmp a => exact h.after_jumpWhen (test := isNonNegative signedDecode) ht
  | jmz a => exact h.after_jumpWhen (test := isZero) ht

end SameRegisters

/-! ### The one write of a step -/

/-- STO leaves the accumulator's word at its operand address. -/
theorem exec_sto_readMem {a : Field5} {s t : State} (h : exec (.sto a) s = .next t) :
    t.readMem a = s.ac := by
  obtain rfl := completeStep_next h
  exact readMem_writeMem_same s a s.ac

/-- Every instruction but a STO to `b` leaves the word at `b`. -/
theorem exec_readMem_of_ne_sto {i : Instr} {b : Field5} {s t : State} (hi : i ≠ .sto b)
    (h : exec i s = .next t) : t.readMem b = s.readMem b := by
  rcases exec_cases h with ⟨-, rfl⟩ | ⟨a, -, rfl⟩ | ⟨a, -, rfl⟩ | ⟨a, rfl, rfl⟩ | ⟨a, -, rfl⟩ |
    ⟨a, -, rfl⟩ | ⟨a, -, rfl⟩ | ⟨a, -, rfl⟩
  case inr.inr.inr.inl =>
    have hb : b ≠ a := fun e => hi (congrArg Instr.sto e.symm)
    exact readMem_writeMem_other s s.ac hb
  all_goals rfl

/-- A running machine's step executes the word at its PC. -/
theorem step_of_running {s : State} (h : s.run = .running) :
    step s = exec (decode (s.readMem s.pc)) s := by
  rw [step, h, fetch]

/-- Settles O14: both states execute the same instruction, which keeps their registers equal
(`SameRegisters.after_exec`) and writes memory only where it is a STO. -/
theorem memoryIsReachedByTheListedAccessesOnly :
    Obligations.MemoryIsReachedByTheListedAccessesOnly := by
  intro s s' t hac hpc hrun hfetch hword hstep
  obtain ⟨hrunning, hexec : exec (decode (s.readMem s.pc)) s = .next t⟩ := step_next hstep
  obtain ⟨t', hexec', hregs⟩ := SameRegisters.after_exec ⟨hac, hpc, hrun⟩ hword hexec
  have hstep' : step s' = .next t' := by
    rw [step_of_running (hrun.symm.trans hrunning), ← hfetch]
    exact hexec'
  refine ⟨t', hstep', hregs.ac.symm, hregs.pc.symm, hregs.run.symm, fun b =>
    ⟨fun hsto => ?_, fun hne => ⟨exec_readMem_of_ne_sto hne hexec, exec_readMem_of_ne_sto hne hexec'⟩⟩⟩
  rw [hsto] at hexec hexec'
  exact ⟨exec_sto_readMem hexec, (exec_sto_readMem hexec').trans hac.symm⟩

end Sys2Proof.Machine
end

section
/-! PROOFS. The codec: the bits of `enc_n` (40_codec.md R81) and the weighted sums of `u_n` and `s_n` (R82,
R83). -/

namespace Sys2Proof.Machine

/-! ### Bits of integers and of vectors -/

/-- Reduction modulo `2^n` keeps the bits below `n`: what it takes away is a multiple of `2^(i+1)`. -/
theorem emod_two_pow_ediv_two_pow_emod_two {i n : Nat} (h : i < n) (x : Int) :
    x % 2 ^ n / 2 ^ i % 2 = x / 2 ^ i % 2 := by
  obtain ⟨k, rfl⟩ := Nat.exists_eq_add_of_lt h
  have hi : (2 : Int) ^ i ≠ 0 := by positivity
  have hx : x = x % 2 ^ (i + k + 1) + 2 ^ i * (2 * (2 ^ k * (x / 2 ^ (i + k + 1)))) := by
    conv_lhs => rw [← Int.emod_add_mul_ediv x (2 ^ (i + k + 1))]
    ring
  conv_rhs => rw [hx, Int.add_mul_ediv_left _ _ hi, Int.add_mul_emod_self_left]

/-- A bit of a vector, read off its unsigned value. -/
theorem getLsbD_eq_decide_uval {n : Nat} (v : BitVec n) (i : Nat) :
    v.getLsbD i = decide (uval v / 2 ^ i % 2 = 1) := by
  rw [← BitVec.testBit_toNat, Nat.testBit_eq_decide_div_mod_eq, decide_eq_decide, uval]
  norm_cast

/-- The value of the low `k` bits of a vector is the sum of their weights. -/
theorem toNat_mod_two_pow_eq_sum {n : Nat} (v : BitVec n) (k : Nat) :
    ((v.toNat % 2 ^ k : Nat) : Int) =
      ∑ i : Fin k, if v.getLsbD i then (2 : Int) ^ (i : Nat) else 0 := by
  induction k with
  | zero => simp [Nat.mod_one]
  | succ k ih =>
    have hbit : v.toNat / 2 ^ k % 2 = (v.getLsbD k).toNat := by
      rw [← Nat.toNat_testBit, BitVec.testBit_toNat]
    rw [Fin.sum_univ_castSucc, Nat.mod_pow_succ, hbit, Nat.cast_add, ih]
    cases hk : v.getLsbD k <;> simp [hk]

/-! ### The three functions -/

theorem uval_enc (n : Nat) (x : Int) : uval (enc n x) = x % 2 ^ n := toNat_enc n x

/-- Settles O29: a bit below `n` is a bit of the unsigned value `x mod 2^n` (`uval_enc`), and that value
determines the vector (`uval_inj`). -/
theorem encHasTheBitsOfTheInteger : Obligations.EncHasTheBitsOfTheInteger := by
  intro n x _
  refine ⟨fun i hi => ?_, uval_enc n x, fun v hv => uval_inj (hv.trans (uval_enc n x).symm)⟩
  have hpow : (0 : Int) ≤ 2 ^ i := by positivity
  rw [getLsbD_eq_decide_uval, uval_enc, emod_two_pow_ediv_two_pow_emod_two hi,
    Int.fdiv_eq_ediv_of_nonneg x hpow]

/-- Settles O30: the weighted sum of the low `n` bits is the whole value. -/
theorem unsignedValueIsTheWeightedSum : Obligations.UnsignedValueIsTheWeightedSum := by
  intro n v
  have hlt : uval v < 2 ^ n := by
    unfold uval
    exact_mod_cast v.isLt
  refine ⟨?_, Int.natCast_nonneg _, Int.le_sub_one_of_lt hlt⟩
  rw [← toNat_mod_two_pow_eq_sum, BitVec.toNat_mod_cancel, uval]

/-! The top bit's weight under each value of `SIGNED_DECODE`. -/

@[simp] theorem topWeight_legacy_succ (n : Nat) : topWeight .legacy (n + 1) = 2 ^ n := by
  simp [topWeight]

@[simp] theorem topWeight_twosComplement_succ (n : Nat) : topWeight .twosComplement (n + 1) = -2 ^ n := by
  simp [topWeight]

/-- Settles O31: the top bit's weight (`sval_succ`) plus the weighted sum of the `n` bits below it. -/
theorem signedValueIsThePrintedFormula : Obligations.SignedValueIsThePrintedFormula := by
  intro n v
  constructor
  · rw [sval_succ, topWeight_legacy_succ, toNat_mod_two_pow_eq_sum]
  · rw [sval_succ, topWeight_twosComplement_succ, toNat_mod_two_pow_eq_sum, apply_ite Neg.neg, neg_zero]

end Sys2Proof.Machine
end

section
/-! PROOFS. The cycle: the instruction a step runs (41_cycle.md R101) and the PC update that ends it (R104). -/

namespace Sys2Proof.Machine

/-- Settles O10: the running branch of `step`. -/
theorem stepRunsTheInstructionAtThePc : Obligations.StepRunsTheInstructionAtThePc :=
  fun _ => step_of_running

/-! ### The conditions of the two jumps -/

/-- Under both values of `SIGNED_DECODE` only the zero vector has the signed value 0: the top bit weighs
`2^n` or `-2^n`, and the bits below it, whose value is less than `2^n`, cannot cancel it. -/
theorem sval_eq_zero_iff (d : SignedDecode) {n : Nat} (v : BitVec (n + 1)) : sval d v = 0 ↔ v = 0 := by
  simp only [sval, Nat.add_sub_cancel]
  cases hmsb : v.msb with
  | false =>
    have hlt : v.toNat < 2 ^ n := BitVec.toNat_lt_of_msb_false hmsb
    simp [Nat.mod_eq_of_lt hlt, BitVec.toNat_eq]
  | true =>
    have hne : v ≠ 0 := by
      rintro rfl
      simp at hmsb
    refine iff_of_false ?_ hne
    cases d with
    | legacy =>
      rw [if_pos rfl, topWeight_legacy_succ]
      positivity
    | twosComplement =>
      have hrest : ((v.toNat % 2 ^ n : Nat) : Int) < 2 ^ n := by
        exact_mod_cast Nat.mod_lt v.toNat (Nat.two_pow_pos n)
      rw [if_pos rfl, topWeight_twosComplement_succ]
      omega

theorem isZero_iff_sval (d : SignedDecode) (x : Word) : isZero x = true ↔ sval d x = 0 :=
  decide_eq_true_iff.trans (sval_eq_zero_iff d x).symm

theorem isNonNegative_iff_sval (d : SignedDecode) (x : Word) : isNonNegative d x = true ↔ 0 ≤ sval d x :=
  decide_eq_true_iff

/-! ### The PC after each kind of step -/

/-- The end of a step without a jump advances the PC modulo 32. -/
theorem completeStep_pc {s t : State} (h : completeStep false s = .next t) :
    t.pc.toNat = (s.pc.toNat + 1) % 32 := by
  rw [completeStep_next h, setPc_pc, toNat_nextPc]

/-- A jump whose test says `p` leaves its target where `p` holds, and advances the PC where it does not. -/
theorem jumpWhen_pc {c : Bool} {p : Prop} [Decidable p] (hc : c = true ↔ p) {target : Field5}
    {s t : State} (h : jumpWhen c target s = .next t) :
    if p then t.pc = target else t.pc.toNat = (s.pc.toNat + 1) % 32 := by
  rw [jumpWhen_next h, setPc_pc]
  split
  next hp => rw [if_pos (hc.2 hp)]
  next hp => rw [if_neg (mt hc.1 hp), toNat_nextPc]

/-- Settles O16, one case per instruction: HLT has no PC update, the jumps end in `jumpWhen`, all others in
`completeStep`. -/
theorem pcUpdateEndsEveryStep : Obligations.PcUpdateEndsEveryStep := by
  intro s t h
  obtain ⟨-, hexec : exec (decode (s.readMem s.pc)) s = .next t⟩ := step_next h
  generalize decode (s.readMem s.pc) = i at hexec
  cases i with
  | hlt =>
    cases hexec
    exact setRun_pc s .halted
  | jmp a => exact jumpWhen_pc (isNonNegative_iff_sval signedDecode s.ac) hexec
  | jmz a => exact jumpWhen_pc (isZero_iff_sval signedDecode s.ac) hexec
  | lod a | ldc a | sto a | add a | sub a => exact (completeStep_pc hexec :)

end Sys2Proof.Machine
end

section
/-! PROOFS. The data transfer instructions LOD, LDC and STO (42_data_transfer.md R120 to R122), and what they
need of the decoder and of the codec. -/

namespace Sys2Proof.Machine

/-! ### Decoding by the opcode bits -/

theorem operandField_eq_setWidth (w : Word) : operandField w = w.setWidth 5 :=
  (BitVec.setWidth_eq_extractLsb' (by decide)).symm

/-- The same instruction with `a` in its operand field; HLT carries none. -/
def withOperand (i : Instr) (a : Field5) : Instr :=
  match i with
  | .hlt => .hlt
  | .lod _ => .lod a
  | .ldc _ => .ldc a
  | .sto _ => .sto a
  | .add _ => .add a
  | .sub _ => .sub a
  | .jmp _ => .jmp a
  | .jmz _ => .jmz a

/-- A word decodes as its opcode bits alone do, with the word's own operand (30_encoding.md R62). -/
theorem decode_eq_withOperand {w opcodeBits : Word} (h : w &&& 0xE0#8 = opcodeBits) :
    decode w = withOperand (decode opcodeBits) (w.setWidth 5) := by
  subst h
  have h7 : (w &&& 0xE0#8).getLsbD 7 = w.getLsbD 7 := by simp
  have h6 : (w &&& 0xE0#8).getLsbD 6 = w.getLsbD 6 := by simp
  have h5 : (w &&& 0xE0#8).getLsbD 5 = w.getLsbD 5 := by simp
  simp only [decode, h7, h6, h5, operandField_eq_setWidth]
  cases w.getLsbD 7 <;> cases w.getLsbD 6 <;> cases w.getLsbD 5 <;> rfl

/-! ### Signed values and LDC's immediate -/

/-- Under `LEGACY` the top bit has the weight it has in the unsigned value. -/
theorem sval_legacy {n : Nat} (v : BitVec (n + 1)) : sval .legacy v = v.toNat := by
  have hval : (v.toNat : Int) = ∑ i : Fin (n + 1), if v.getLsbD i then (2 : Int) ^ (i : Nat) else 0 := by
    rw [← toNat_mod_two_pow_eq_sum, BitVec.toNat_mod_cancel]
  rw [sval_succ, topWeight_legacy_succ, toNat_mod_two_pow_eq_sum, hval, Fin.sum_univ_castSucc, add_comm]
  rfl

/-- The two signed values differ by `2^n` where the top bit is set (40_codec.md R83). -/
theorem sval_twosComplement_eq_legacy_sub {n : Nat} (v : BitVec (n + 1)) :
    sval .twosComplement v = sval .legacy v - if v.msb then 2 ^ (n + 1) else 0 := by
  rw [sval_succ, sval_succ, topWeight_legacy_succ, topWeight_twosComplement_succ, msb_eq_top]
  cases v.getLsbD n with
  | false => simp
  | true =>
    simp only [if_true]
    ring

/-- Under `TWOS_COMPLEMENT` the signed value is the two's complement one. -/
theorem sval_twosComplement {n : Nat} (v : BitVec (n + 1)) : sval .twosComplement v = v.toInt := by
  rw [sval_twosComplement_eq_legacy_sub, sval_legacy, BitVec.toInt_eq_msb_cond]
  cases v.msb <;> simp

theorem ldcImmediate_legacy (a : Field5) : ldcImmediate .legacy a = a.setWidth 8 := by
  rw [ldcImmediate, sval_legacy, enc, BitVec.ofInt_natCast, BitVec.ofNat_toNat]

theorem ldcImmediate_twosComplement (a : Field5) : ldcImmediate .twosComplement a = a.signExtend 8 := by
  rw [ldcImmediate, sval_twosComplement, enc, BitVec.signExtend]

/-- An immediate is an operand 0..31, or one of 16..31 moved up by 224 (42_data_transfer.md R121). -/
theorem ldcImmediate_range (d : SignedDecode) (a : Field5) :
    (ldcImmediate d a).toNat < 32 ∨ 239 < (ldcImmediate d a).toNat := by
  have hlt : a.toNat < 32 := a.isLt
  have hzero : (a.setWidth 8).toNat = a.toNat := BitVec.toNat_setWidth_of_le (by decide)
  cases d with
  | legacy =>
    rw [ldcImmediate_legacy, hzero]
    exact .inl hlt
  | twosComplement =>
    rw [ldcImmediate_twosComplement, BitVec.toNat_signExtend, hzero]
    cases hmsb : a.msb with
    | false => exact .inl hlt
    | true =>
      have hge : 16 ≤ a.toNat := BitVec.le_toNat_of_msb_true hmsb
      right
      simp only [if_true]
      omega

/-! ### The three instructions -/

/-- LOD as an equation: `AC ← Memory[u_5(a)]` and the PC update. -/
theorem exec_lod (a : Field5) (s : State) :
    exec (.lod a) s = .next ((s.setAc (s.readMem a)).setPc (nextPc s.pc)) := rfl

/-- LDC as an equation: `AC ← enc_8(s_5(a))` and the PC update. -/
theorem exec_ldc (a : Field5) (s : State) :
    exec (.ldc a) s = .next ((s.setAc (ldcImmediate signedDecode a)).setPc (nextPc s.pc)) := rfl

/-- STO as an equation: `Memory[u_5(a)] ← AC` and the PC update. -/
theorem exec_sto (a : Field5) (s : State) :
    exec (.sto a) s = .next ((s.writeMem a s.ac).setPc (nextPc s.pc)) := rfl

/-- Settles O3: the written word is read back at its own address and hides no other. -/
theorem stoWritesTheAddressedWordOnly : Obligations.StoWritesTheAddressedWordOnly :=
  ⟨fun a s => ⟨_, exec_sto a s, exec_sto_readMem (exec_sto a s),
    fun _ hb => readMem_writeMem_other s s.ac hb, rfl, toNat_nextPc s.pc, rfl⟩,
    fun _ hw => decode_eq_withOperand hw⟩

/-- Settles O1: the accumulator takes the word read, and memory is not written. -/
theorem lodCopiesTheAddressedWord : Obligations.LodCopiesTheAddressedWord :=
  ⟨fun a s => ⟨_, exec_lod a s, rfl, toNat_nextPc s.pc, rfl, fun _ => rfl⟩,
    fun _ hw => decode_eq_withOperand hw⟩

/-- Settles O2: the accumulator takes the immediate, whose value under each `SIGNED_DECODE` and whose range
are those of `ldcImmediate`. -/
theorem ldcLoadsTheReencodedImmediate : Obligations.LdcLoadsTheReencodedImmediate := by
  refine ⟨fun a s => ⟨_, exec_ldc a s, rfl, ?_, ldcImmediate_range signedDecode a, toNat_nextPc s.pc,
    rfl, fun _ => rfl⟩, fun w hw => decode_eq_withOperand hw⟩
  rw [setPc_ac, setAc_ac]
  cases signedDecode with
  | legacy => exact ldcImmediate_legacy a
  | twosComplement => exact ldcImmediate_twosComplement a

end Sys2Proof.Machine
end

section
/-! PROOFS. The arithmetic instructions ADD and SUB (43_arithmetic.md R130, R131), and what they need of the
codec: `enc_n` does not see which of the two signed readings its argument came from (40_codec.md R87, R88). -/

namespace Sys2Proof.Machine

/-! ### Signed values modulo `2^n` -/

/-- `enc_n` keeps its argument modulo `2^n` and no more (40_codec.md R81). -/
theorem enc_eq_iff_modEq {n : Nat} {x y : Int} : enc n x = enc n y ↔ x ≡ y [ZMOD 2 ^ n] := by
  rw [Int.ModEq, ← uval_enc, ← uval_enc]
  exact ⟨congrArg uval, uval_inj⟩

/-- Under both values of `SIGNED_DECODE` the signed value is the unsigned one up to a multiple of `2^(n+1)`:
`LEGACY` reads the same value, and `TWOS_COMPLEMENT` differs from it by `2^(n+1)` or not at all. -/
theorem sval_modEq_uval (d : SignedDecode) {n : Nat} (v : BitVec (n + 1)) :
    sval d v ≡ uval v [ZMOD 2 ^ (n + 1)] := by
  have hlegacy : sval .legacy v = uval v := sval_legacy v
  cases d with
  | legacy => rw [hlegacy]
  | twosComplement =>
    rw [sval_twosComplement_eq_legacy_sub, hlegacy]
    cases v.msb with
    | false => simp
    | true => exact Int.sub_emod_right (uval v) (2 ^ (n + 1))

/-! ### The two results of the ALU -/

theorem aluSum_eq_enc_sval (d : SignedDecode) (m c : Word) : aluSum m c = enc 8 (sval d m + sval d c) :=
  enc_eq_iff_modEq.2 ((sval_modEq_uval d m).add (sval_modEq_uval d c)).symm

theorem aluDifference_eq_enc_sval (d : SignedDecode) (c m : Word) :
    aluDifference c m = enc 8 (sval d c - sval d m) :=
  enc_eq_iff_modEq.2 ((sval_modEq_uval d c).sub (sval_modEq_uval d m)).symm

theorem toNat_aluSum (m c : Word) : (aluSum m c).toNat = (m.toNat + c.toNat) % 256 := by
  have h : ((aluSum m c).toNat : Int) = (uval m + uval c) % 2 ^ 8 := toNat_enc 8 _
  unfold uval at h
  exact_mod_cast h

theorem toNat_aluDifference (c m : Word) :
    ((aluDifference c m).toNat : Int) = ((c.toNat : Int) - (m.toNat : Int)) % 256 :=
  toNat_enc 8 _

/-! ### The two instructions -/

/-- ADD as an equation: the ALU's sum of the memory operand and AC, and the PC update. -/
theorem exec_add (a : Field5) (s : State) :
    exec (.add a) s = .next ((s.setAc (aluSum (s.readMem a) s.ac)).setPc (nextPc s.pc)) := rfl

/-- SUB as an equation: the ALU's difference of AC and the memory operand, and the PC update. -/
theorem exec_sub (a : Field5) (s : State) :
    exec (.sub a) s = .next ((s.setAc (aluDifference s.ac (s.readMem a))).setPc (nextPc s.pc)) := rfl

/-- Settles O4: the accumulator takes the ALU's sum, which is the encoded sum of the signed values. -/
theorem addWrapsTheSignedSum : Obligations.AddWrapsTheSignedSum :=
  ⟨fun a s => ⟨_, exec_add a s, aluSum_eq_enc_sval signedDecode (s.readMem a) s.ac,
    toNat_aluSum (s.readMem a) s.ac, toNat_nextPc s.pc, rfl, fun _ => rfl⟩,
    fun _ hw => decode_eq_withOperand hw⟩

/-- Settles O5: the accumulator takes the ALU's difference, which is the encoded difference of the signed
values, accumulator minus memory. -/
theorem subWrapsAccumulatorMinusMemory : Obligations.SubWrapsAccumulatorMinusMemory :=
  ⟨fun a s => ⟨_, exec_sub a s, aluDifference_eq_enc_sval signedDecode s.ac (s.readMem a),
    toNat_aluDifference s.ac (s.readMem a), toNat_nextPc s.pc, rfl, fun _ => rfl⟩,
    fun _ hw => decode_eq_withOperand hw⟩

end Sys2Proof.Machine
end

section
/-! PROOFS. The control transfer instructions HLT, JMP and JMZ (44_control_transfer.md R140 to R142), and what
they need of the codec: where the signed value is not negative (40_codec.md R90). -/

namespace Sys2Proof.Machine

/-! ### The sign of the signed value -/

/-- Under `LEGACY` no vector is negative. -/
theorem sval_legacy_nonneg {n : Nat} (v : BitVec (n + 1)) : 0 ≤ sval .legacy v := by
  rw [sval_legacy]
  exact Int.natCast_nonneg _

/-- Under `TWOS_COMPLEMENT` the top bit is the sign. -/
theorem sval_twosComplement_nonneg_iff {n : Nat} (v : BitVec (n + 1)) :
    0 ≤ sval .twosComplement v ↔ v.getLsbD n = false := by
  rw [sval_twosComplement, ← msb_eq_top, BitVec.msb_eq_toInt, decide_eq_false_iff_not, not_lt]

/-! ### The three instructions -/

/-- HLT as an equation: `RUN ← Halted`, and no PC update. -/
theorem exec_hlt (s : State) : exec .hlt s = .next (s.setRun .halted) := rfl

/-- JMP as an equation: the PC update, to the target where AC is not negative. -/
theorem exec_jmp (a : Field5) (s : State) :
    exec (.jmp a) s = .next (s.setPc (if isNonNegative signedDecode s.ac then a else nextPc s.pc)) :=
  jumpWhen_eq _ a s

/-- JMZ as an equation: the PC update, to the target where AC is zero. -/
theorem exec_jmz (a : Field5) (s : State) :
    exec (.jmz a) s = .next (s.setPc (if isZero s.ac then a else nextPc s.pc)) :=
  jumpWhen_eq _ a s

/-- The PC that a jump writes, as a number, where the jump's test says `p`. -/
theorem toNat_jump_pc {c : Bool} {p : Prop} [Decidable p] (hc : c = true ↔ p) (target pc : Field5) :
    (if c then target else nextPc pc).toNat = if p then target.toNat else (pc.toNat + 1) % 32 := by
  rw [apply_ite BitVec.toNat, toNat_nextPc, if_congr hc rfl rfl]

/-- Settles O7: JMP writes the PC alone, its test is the sign of the signed value, and that sign is read under
each `SIGNED_DECODE`. -/
theorem jmpTakenWhenNotNegative : Obligations.JmpTakenWhenNotNegative := by
  refine ⟨fun a s => ⟨_, exec_jmp a s, toNat_jump_pc (isNonNegative_iff_sval signedDecode s.ac) a s.pc, ?_,
    rfl, rfl, fun _ => rfl⟩, fun _ hw => decode_eq_withOperand hw⟩
  cases signedDecode with
  | legacy => exact iff_true_intro (sval_legacy_nonneg s.ac)
  | twosComplement => exact sval_twosComplement_nonneg_iff s.ac

/-- Settles O8: JMZ writes the PC alone, and its test for the zero word is the test for the signed value 0
(`sval_eq_zero_iff`). -/
theorem jmzTakenWhenZero : Obligations.JmzTakenWhenZero :=
  ⟨fun a s => ⟨_, exec_jmz a s, toNat_jump_pc (isZero_iff_sval signedDecode s.ac) a s.pc,
    sval_eq_zero_iff signedDecode s.ac, rfl, rfl, fun _ => rfl⟩,
    fun _ hw => decode_eq_withOperand hw⟩

/-- Settles O6: HLT writes `RUN` alone, and its words decode without their operand. -/
theorem hltHaltsInPlace : Obligations.HltHaltsInPlace :=
  ⟨fun s => ⟨_, exec_hlt s, rfl, rfl, rfl, fun _ => rfl⟩, fun _ hw => decode_eq_withOperand hw⟩

end Sys2Proof.Machine
end

section
/-! PROOFS. The absence of exceptions (60_exceptions.md R160): every instruction answers a next state. -/

namespace Sys2Proof.Machine

/-- The execute phase is total: each instruction's equation names the state it leaves, in every state. -/
theorem exec_total (i : Instr) (s : State) : ∃ t, exec i s = .next t := by
  cases i with
  | hlt => exact ⟨_, exec_hlt s⟩
  | lod a => exact ⟨_, exec_lod a s⟩
  | ldc a => exact ⟨_, exec_ldc a s⟩
  | sto a => exact ⟨_, exec_sto a s⟩
  | add a => exact ⟨_, exec_add a s⟩
  | sub a => exact ⟨_, exec_sub a s⟩
  | jmp a => exact ⟨_, exec_jmp a s⟩
  | jmz a => exact ⟨_, exec_jmz a s⟩

/-- A running machine steps, whatever word is at the PC: `step` runs that word's instruction. -/
theorem step_total_of_running {s : State} (h : s.run = .running) : ∃ t, step s = .next t := by
  rw [step_of_running h]
  exact exec_total _ s

/-- Settles O12: no instruction faults (`exec_total`), and a running machine's step is an instruction. -/
theorem noInstructionFaults : Obligations.NoInstructionFaults :=
  ⟨exec_total, fun _ => step_total_of_running⟩

end Sys2Proof.Machine
end

section
/-! PROOFS. The result of a run and the host's step budget (70_reset_and_hazards.md R186 to R190, log
entry 9). -/

namespace Sys2Proof.Machine

/-! ### The result of a state -/

/-- The memory output is the memory read at the addresses 0 to 31 in order (70_reset_and_hazards.md R186). -/
theorem memOut_eq_ofFn (s : State) :
    s.memOut = List.ofFn (fun a : Fin 32 => s.readMem (BitVec.ofFin a)) := by
  rw [State.memOut, List.ofFn_eq_map, ← List.map_coe_finRange_eq_range, List.map_map]
  rfl

/-- Only a halted state has a result (70_reset_and_hazards.md R188, R189). -/
theorem result_eq_some_iff {s : State} {r : RunResult} : result s = some r ↔
    s.run = .halted ∧ r.memOut = s.memOut ∧ r.acOut = s.ac ∧ r.acSigned = sval signedDecode s.ac ∧
      r.pcOut = s.pc := by
  obtain ⟨memOut, acOut, acSigned, pcOut⟩ := r
  cases h : s.run with
  | running => simp [result_of_running h]
  | halted => simp [result_of_halted h, eq_comm]

theorem result_ne_some_of_running {s : State} {r : RunResult} (h : s.run = .running) :
    result s ≠ some r := by
  rw [result_of_running h]
  exact nofun

/-! ### Runs that reach a result -/

theorem reaches_zero {s t : State} : Reaches 0 s t ↔ s = t :=
  Iff.of_eq (Host.Outcome.next.injEq s t)

theorem not_reaches_succ_of_halted {n : Nat} {s t : State} (h : s.run = .halted) :
    ¬ Reaches (n + 1) s t :=
  not_reaches_of_fault (r := .halted) (by rw [step, h])

/-- A run of given length comes to one state only. -/
theorem reaches_unique {n : Nat} {s t u : State} (ht : Reaches n s t) (hu : Reaches n s u) : t = u :=
  Host.Outcome.next.inj (ht.symm.trans hu)

/-- Within `n` steps, the run from `s` comes to a state whose result is `r`. -/
def EndsWithin (n : Nat) (s : State) (r : RunResult) : Prop :=
  ∃ k t, k ≤ n ∧ Reaches k s t ∧ result t = some r

/-- A run from a halted state goes nowhere: its result is the state's own. -/
theorem endsWithin_of_halted {n : Nat} {s : State} {r : RunResult} (h : s.run = .halted) :
    EndsWithin n s r ↔ result s = some r := by
  constructor
  · rintro ⟨k, t, -, hreach, hres⟩
    cases k with
    | zero => rwa [reaches_zero.1 hreach]
    | succ k => exact absurd hreach (not_reaches_succ_of_halted h)
  · exact fun hres => ⟨0, s, n.zero_le, rfl, hres⟩

theorem not_endsWithin_zero_of_running {s : State} {r : RunResult} (h : s.run = .running) :
    ¬ EndsWithin 0 s r := by
  rintro ⟨k, t, hk, hreach, hres⟩
  obtain rfl : k = 0 := Nat.le_zero.1 hk
  obtain rfl : s = t := reaches_zero.1 hreach
  exact result_ne_some_of_running h hres

/-- A step uses up one step of the bound: no running state has a result of its own. -/
theorem endsWithin_succ {n : Nat} {s u : State} {r : RunResult} (h : step s = .next u) :
    EndsWithin (n + 1) s r ↔ EndsWithin n u r := by
  constructor
  · rintro ⟨k, t, hk, hreach, hres⟩
    cases k with
    | zero =>
      obtain rfl : s = t := reaches_zero.1 hreach
      exact absurd hres (result_ne_some_of_running (step_next h).1)
    | succ k => exact ⟨k, t, Nat.le_of_succ_le_succ hk, (reaches_succ h).1 hreach, hres⟩
  · rintro ⟨k, t, hk, hreach, hres⟩
    exact ⟨k + 1, t, Nat.succ_le_succ hk, (reaches_succ h).2 hreach, hres⟩

/-! ### The run under a budget -/

/-- At a halted state the host's loop has ended, whatever its budget. -/
theorem runUnder_eq_ended_iff_of_halted {n : Nat} {s : State} {r : RunResult} (h : s.run = .halted) :
    runUnder n s = .ended r ↔ result s = some r := by
  rw [runUnder_of_result (result_of_halted h), result_of_halted h, RunOutcome.ended.injEq, Option.some.injEq]

/-- The host's loop ends with a result exactly if the run reaches it in time: at a halted state both are the
state's result, and a running state spends a step of the budget and a step of the run together. -/
theorem runUnder_eq_ended_iff {n : Nat} {s : State} {r : RunResult} :
    runUnder n s = .ended r ↔ EndsWithin n s r := by
  induction n generalizing s with
  | zero =>
    cases h : s.run with
    | running => simp [runUnder_zero h, not_endsWithin_zero_of_running h]
    | halted => rw [runUnder_eq_ended_iff_of_halted h, endsWithin_of_halted h]
  | succ n ih =>
    cases h : s.run with
    | running =>
      obtain ⟨u, hstep⟩ := step_total_of_running h
      rw [runUnder_succ h hstep, endsWithin_succ hstep, ih]
    | halted => rw [runUnder_eq_ended_iff_of_halted h, endsWithin_of_halted h]

theorem not_endsWithin_of_runsForever {n : Nat} {s : State} {r : RunResult} (h : RunsForever s) :
    ¬ EndsWithin n s r := by
  rintro ⟨k, t, -, hreach, hres⟩
  obtain ⟨u, hu, hrun⟩ := h k
  obtain rfl : t = u := reaches_unique hreach hu
  exact result_ne_some_of_running hrun hres

/-- Settles O46: the result by the run state, the budget by `runUnder_eq_ended_iff`, and a run that never
halts has at every length a running state, which has no result. -/
theorem runEndsExactlyAtAHaltedState : Obligations.RunEndsExactlyAtAHaltedState := by
  refine ⟨fun s r => ?_, fun _ _ _ => runUnder_eq_ended_iff,
    fun _ h _ _ => mt runUnder_eq_ended_iff.1 (not_endsWithin_of_runsForever h)⟩
  rw [result_eq_some_iff, memOut_eq_ofFn]

end Sys2Proof.Machine
end

section
/-! PROOFS. Decoder and encoder: a word is its opcode number times 32 plus its operand (30_encoding.md R60 to
R67). -/

namespace Sys2Proof.Machine

/-! ### The two fields of a word as numbers -/

theorem toNat_operandField (w : Word) : (operandField w).toNat = w.toNat % 32 := by
  simp [operandField]

/-- A word's operand is the operand of the instruction it decodes to; HLT has none (30_encoding.md R62). -/
theorem decode_eq_withOperand_operandField (w : Word) :
    decode w = withOperand (decode w) (operandField w) := by
  unfold decode
  split <;> rfl

/-- The opcode number is the value of the word's three high bits (30_encoding.md R63). -/
theorem opcode_decode (w : Word) : ((decode w).opcode : Nat) = w.toNat / 32 := by
  have hhigh : w.toNat / 32 = (w.toNat / 32) % 2 + 2 * (w.toNat / 64 % 2) + 4 * (w.toNat / 128 % 2) := by
    have := w.isLt
    omega
  have hbit (i : Nat) : w.toNat / 2 ^ i % 2 = (w.getLsbD i).toNat := by
    rw [← Nat.toNat_testBit, BitVec.testBit_toNat]
  rw [hhigh, show w.toNat / 32 % 2 = _ from hbit 5, show w.toNat / 64 % 2 = _ from hbit 6,
    show w.toNat / 128 % 2 = _ from hbit 7]
  unfold decode
  cases w.getLsbD 7 <;> cases w.getLsbD 6 <;> cases w.getLsbD 5 <;> rfl

/-- The word of an instruction with an operand: the opcode number above, the operand below
(30_encoding.md R60). -/
theorem toNat_encode_withOperand {i : Instr} (hi : i ≠ .hlt) (a : Field5) :
    (encode (withOperand i a)).toNat = 32 * i.opcode + a.toNat := by
  have happend (o : BitVec 3) : (o ++ a).toNat = 32 * o.toNat + a.toNat := by
    rw [BitVec.toNat_append, ← Nat.shiftLeft_add_eq_or_of_lt a.isLt, Nat.shiftLeft_eq, mul_comm]
  cases i with
  | hlt => exact absurd rfl hi
  | lod | ldc | sto | add | sub | jmp | jmz => exact happend _

/-! ### Decoding and encoding -/

/-- An opcode field followed by an operand field decodes to the opcode's instruction with that operand. -/
theorem decode_append (o : BitVec 3) (a : Field5) :
    decode (o ++ a) = withOperand (decode (o ++ 0#5)) a := by
  have hopcode : (o ++ a) &&& (7#3 ++ 0#5) = o ++ 0#5 := by
    rw [BitVec.and_append, BitVec.and_zero, show o &&& 7#3 = o from BitVec.and_allOnes]
  have hoperand : (o ++ a).setWidth 5 = a := BitVec.setWidth_append_eq_right
  rw [decode_eq_withOperand hopcode, hoperand]

theorem decode_encode (i : Instr) : decode (encode i) = i := by
  cases i with
  | hlt => rfl
  | lod a | ldc a | sto a | add a | sub a | jmp a | jmz a => exact decode_append _ a

theorem decodeMany_encodeAll (is : List Instr) (rest : List Word) :
    decodeMany is.length (encodeAll is ++ rest) = .ok (is, rest) := by
  induction is with
  | nil => rfl
  | cons i is ih =>
    rw [encodeAll] at ih
    simp [decodeMany, decodeBytes, encodeAll, decode_encode, ih]

theorem wellFormed_eq_true (i : Instr) : i.wellFormed = true := by cases i <;> rfl

/-- Settles O23, by induction on the instructions (`decodeMany_encodeAll`), one word each (`decode_encode`). -/
theorem decodingInvertsEncoding : Obligations.DecodingInvertsEncoding :=
  fun is rest => ⟨List.all_eq_true.2 fun i _ => wellFormed_eq_true i, decodeMany_encodeAll is rest⟩

/-- HLT alone has the opcode number 0 (30_encoding.md R63). -/
theorem opcode_eq_zero_iff (i : Instr) : i.opcode = 0 ↔ i = .hlt := by
  cases i <;> simp [Instr.opcode]

theorem decode_eq_hlt_iff (w : Word) : decode w = .hlt ↔ w.toNat < 32 := by
  rw [← opcode_eq_zero_iff, ← Fin.val_eq_zero_iff, opcode_decode]
  omega

theorem encode_decode {w : Word} (h : decode w ≠ .hlt) : encode (decode w) = w := by
  apply BitVec.eq_of_toNat_eq
  rw [decode_eq_withOperand_operandField, toNat_encode_withOperand h, opcode_decode, toNat_operandField]
  exact Nat.div_add_mod w.toNat 32

/-- Settles O24: HLT is the opcode number 0, and every other word is its opcode number and its operand. -/
theorem encodingInvertsDecodingButForHlt : Obligations.EncodingInvertsDecodingButForHlt :=
  fun w => ⟨decode_eq_hlt_iff w, fun h => encode_decode (mt (decode_eq_hlt_iff w).1 (not_lt.2 h))⟩

/-! ### The opcode table -/

/-- The mask of the table's rows keeps the opcode field and clears the operand field. -/
theorem toNat_and_opcodeMask (w : Word) : (w &&& 0xE0#8).toNat = w.toNat / 32 * 32 := by
  have hshift : w &&& 0xE0#8 = w >>> 5 <<< 5 := by revert w; decide
  have := w.isLt
  rw [hshift, BitVec.toNat_shiftLeft, BitVec.toNat_ushiftRight]
  omega

/-- A row of the table covers the words whose high three bits are the row's place in the table. -/
theorem covers_get_iff (k : Fin 8) (w : Word) :
    (opcodeTable.get k).covers w = true ↔ (k : Nat) = w.toNat / 32 := by
  have hmask : (opcodeTable.get k).mask = 0xE0#8 := by revert k; decide
  have hpattern : (opcodeTable.get k).pattern.toNat = k * 32 := by revert k; decide
  rw [OpcodeRow.covers, beq_iff_eq, hmask, ← BitVec.toNat_inj, hpattern, toNat_and_opcodeMask]
  omega

/-- Settles O25: a row covers the words of its own opcode number. -/
theorem everyWordIsInItsOwnRowOnly : Obligations.EveryWordIsInItsOwnRowOnly := by
  intro w k
  rw [covers_get_iff, ← opcode_decode, Fin.ext_iff]

/-- Settles O26: each word is evaluated. -/
theorem writtenOutWordsDecode : Obligations.WrittenOutWordsDecode := by
  unfold Obligations.WrittenOutWordsDecode
  decide

end Sys2Proof.Machine
end

section
/-! PROOFS. The codec's laws (40_codec.md R84 to R88): the two signed readings against the unsigned one, the
round trips, and the ALU. -/

namespace Sys2Proof.Machine

/-! ### Signed against unsigned, and the ranges -/

theorem uval_lt {n : Nat} (v : BitVec n) : uval v < 2 ^ n := by
  unfold uval
  exact_mod_cast v.isLt

theorem sval_legacy_eq_uval {n : Nat} (v : BitVec (n + 1)) : sval .legacy v = uval v := sval_legacy v

theorem sval_legacy_range {n : Nat} (v : BitVec (n + 1)) :
    0 ≤ sval .legacy v ∧ sval .legacy v ≤ 2 ^ (n + 1) - 1 :=
  ⟨sval_legacy_nonneg v, sval_legacy_eq_uval v ▸ Int.le_sub_one_of_lt (uval_lt v)⟩

theorem sval_twosComplement_range {n : Nat} (v : BitVec (n + 1)) :
    -2 ^ n ≤ sval .twosComplement v ∧ sval .twosComplement v ≤ 2 ^ n - 1 := by
  rw [sval_twosComplement]
  exact ⟨BitVec.le_toInt v, Int.le_sub_one_of_lt BitVec.toInt_lt⟩

/-- Settles O32: the readings differ by the top bit's weight (`sval_twosComplement_eq_legacy_sub`), which is a
multiple of the modulus (`sval_modEq_uval`). -/
theorem signedValueAgainstUnsignedValue : Obligations.SignedValueAgainstUnsignedValue := by
  refine fun n v => ⟨sval_legacy_eq_uval v, ?_, sval_legacy_range v, sval_twosComplement_range v,
    fun d => sval_modEq_uval d v⟩
  rw [sval_twosComplement_eq_legacy_sub, sval_legacy_eq_uval, msb_eq_top]

/-! ### Round trips -/

theorem enc_uval {n : Nat} (v : BitVec n) : enc n (uval v) = v := by
  rw [enc, uval, BitVec.ofInt_natCast, BitVec.ofNat_toNat, BitVec.setWidth_eq]

theorem enc_sval (d : SignedDecode) {n : Nat} (v : BitVec (n + 1)) : enc (n + 1) (sval d v) = v :=
  (enc_eq_iff_modEq.2 (sval_modEq_uval d v)).trans (enc_uval v)

theorem sval_legacy_enc {n : Nat} {x : Int} (h0 : 0 ≤ x) (h1 : x ≤ 2 ^ (n + 1) - 1) :
    sval .legacy (enc (n + 1) x) = x := by
  rw [sval_legacy_eq_uval, uval_enc, Int.emod_eq_of_lt h0 (Int.lt_of_le_sub_one h1)]

theorem sval_twosComplement_enc {n : Nat} {x : Int} (h0 : -2 ^ n ≤ x) (h1 : x ≤ 2 ^ n - 1) :
    sval .twosComplement (enc (n + 1) x) = x := by
  rw [sval_twosComplement, enc]
  exact BitVec.toInt_ofInt_eq_self n.succ_pos h0 (Int.lt_of_le_sub_one h1)

/-- Settles O33: `enc_n` keeps its argument modulo `2^n` and no more, and each reading undoes it on the
integers it can answer. -/
theorem codecRoundTrips : Obligations.CodecRoundTrips :=
  fun n d => ⟨uval_enc (n + 1), enc_uval, enc_sval d, fun _ _ => enc_eq_iff_modEq,
    fun _ => sval_legacy_enc, fun _ => sval_twosComplement_enc⟩

/-! ### The ALU -/

theorem aluSum_eq_add (m c : Word) : aluSum m c = m + c := by
  apply BitVec.eq_of_toNat_eq
  rw [toNat_aluSum, BitVec.toNat_add]

theorem aluDifference_eq_sub (c m : Word) : aluDifference c m = c - m := by
  apply BitVec.eq_of_toNat_eq
  have := toNat_aluDifference c m
  have := m.isLt
  rw [BitVec.toNat_sub]
  omega

/-- The signed readings of two words are less than 256 apart: both lie in the range of the one value of
`SIGNED_DECODE`. -/
theorem sval_sub_range (d : SignedDecode) (c m : Word) :
    -255 ≤ sval d c - sval d m ∧ sval d c - sval d m ≤ 255 := by
  cases d with
  | legacy =>
    have := sval_legacy_range c
    have := sval_legacy_range m
    omega
  | twosComplement =>
    have := sval_twosComplement_range c
    have := sval_twosComplement_range m
    omega

/-- Settles O34: the encodings by `aluSum_eq_enc_sval` and its counterpart, the bounds by the ranges of the
signed values. -/
theorem aluResultsDoNotDependOnSignedDecode : Obligations.AluResultsDoNotDependOnSignedDecode := by
  intro d m c
  have hmt := sval_twosComplement_range m
  have hct := sval_twosComplement_range c
  have hml := sval_legacy_range m
  have hcl := sval_legacy_range c
  refine ⟨(aluSum_eq_enc_sval d m c).symm, (aluDifference_eq_enc_sval d c m).symm, aluSum_eq_add m c,
    aluDifference_eq_sub c m, ?_, ?_, sval_sub_range d c m⟩ <;> omega

/-! ### The tests of the jumps and LDC's immediate -/

/-- Settles O35: JMZ's test is the signed value 0 (`isZero_iff_sval`), and JMP's is the sign under each value
of the parameter. -/
theorem jumpTestsUnderBothSignedDecodes : Obligations.JumpTestsUnderBothSignedDecodes :=
  fun x => ⟨fun d => isZero_iff_sval d x, decide_eq_true_iff,
    (isNonNegative_iff_sval .legacy x).2 (sval_legacy_nonneg x),
    (isNonNegative_iff_sval .twosComplement x).trans (sval_twosComplement_nonneg_iff x)⟩

/-- A vector whose top bit is clear has one signed value. -/
theorem sval_twosComplement_eq_legacy {n : Nat} {v : BitVec (n + 1)} (h : v.getLsbD n = false) :
    sval .twosComplement v = sval .legacy v := by
  rw [sval_twosComplement_eq_legacy_sub, msb_eq_top, h]
  exact sub_zero _

/-- Settles O36: the immediate's two forms and its range, and one signed value where the top bit is clear. -/
theorem ldcImmediateUnderBothSignedDecodes : Obligations.LdcImmediateUnderBothSignedDecodes := by
  refine fun a => ⟨ldcImmediate_legacy a, ldcImmediate_twosComplement a, fun h => ?_, fun d => ?_⟩
  · exact congrArg (enc 8) (sval_twosComplement_eq_legacy h)
  · have := ldcImmediate_range d a
    omega

end Sys2Proof.Machine
end

section
/-! PROOFS. The text forms (30_encoding.md R71, R72): a word of an instruction is assembled from its mnemonic
and operand, and disassembles to them. -/

namespace Sys2Proof.Machine

/-! ### Mnemonics with operands -/

/-- The instruction of a mnemonic and an operand field; HLT has none. -/
def Mnemonic.instr (m : Mnemonic) (a : Field5) : Instr :=
  match m with
  | .hlt => .hlt
  | .lod => .lod a
  | .ldc => .ldc a
  | .sto => .sto a
  | .add => .add a
  | .sub => .sub a
  | .jmp => .jmp a
  | .jmz => .jmz a

/-- The number that the disassembler prints for an operand field: signed for LDC, unsigned for the others
(30_encoding.md R71). -/
def operandValue (d : SignedDecode) (m : Mnemonic) (a : Field5) : Int :=
  match m with
  | .ldc => sval d a
  | _ => uval a

theorem exists_instr_eq {i : Instr} (hi : i ≠ .hlt) : ∃ m a, m ≠ .hlt ∧ Mnemonic.instr m a = i := by
  cases i with
  | hlt => exact absurd rfl hi
  | lod a => exact ⟨.lod, a, nofun, rfl⟩
  | ldc a => exact ⟨.ldc, a, nofun, rfl⟩
  | sto a => exact ⟨.sto, a, nofun, rfl⟩
  | add a => exact ⟨.add, a, nofun, rfl⟩
  | sub a => exact ⟨.sub, a, nofun, rfl⟩
  | jmp a => exact ⟨.jmp, a, nofun, rfl⟩
  | jmz a => exact ⟨.jmz, a, nofun, rfl⟩

theorem instr_ne_hlt {m : Mnemonic} (hm : m ≠ .hlt) (a : Field5) : m.instr a ≠ .hlt := by
  cases m with
  | hlt => exact absurd rfl hm
  | lod | ldc | sto | add | sub | jmp | jmz => exact nofun

theorem instr_eq_withOperand (m : Mnemonic) (a : Field5) : m.instr a = withOperand (m.instr a) a := by
  cases m <;> rfl

theorem opcode_instr (m : Mnemonic) (a : Field5) : ((m.instr a).opcode : Nat) = m.opcode := by
  cases m <;> rfl

/-- The word of an instruction disassembles to its mnemonic and the number of its operand. -/
theorem disassemble_encode_instr (d : SignedDecode) {m : Mnemonic} (hm : m ≠ .hlt) (a : Field5) :
    disassemble d (encode (m.instr a)) = .instruction m (operandValue d m a) := by
  rw [disassemble, decode_encode]
  cases m with
  | hlt => exact absurd rfl hm
  | lod | ldc | sto | add | sub | jmp | jmz => rfl

/-- A mnemonic and a number assemble to the mnemonic's instruction with the number as its operand field. -/
theorem assemble_instruction {m : Mnemonic} (hm : m ≠ .hlt) (n : Int) :
    assemble (.instruction m n) = encode (m.instr (enc 5 n)) := by
  have hword : uval (encode (m.instr (enc 5 n))) = 32 * m.opcode + n % 32 := by
    rw [uval, instr_eq_withOperand, toNat_encode_withOperand (instr_ne_hlt hm _), Nat.cast_add, toNat_enc,
      Nat.cast_mul, opcode_instr]
    rfl
  rw [assemble, ← hword, enc_uval]

/-! ### Operands -/

/-- The printed number of an operand determines it: LDC's signed, the others' unsigned. -/
theorem enc_operandValue (d : SignedDecode) (m : Mnemonic) (a : Field5) : enc 5 (operandValue d m a) = a := by
  cases m with
  | ldc => exact enc_sval d a
  | hlt | lod | sto | add | sub | jmp | jmz => exact enc_uval a

/-- The unsigned operands are 0..31. -/
theorem uval_operand_range (a : Field5) : 0 ≤ uval a ∧ uval a ≤ 31 :=
  ⟨Int.natCast_nonneg _, Int.le_sub_one_of_lt (uval_lt a)⟩

theorem uval_enc_operand {n : Int} (h : 0 ≤ n ∧ n ≤ 31) : uval (enc 5 n) = n := by
  rw [uval_enc, Int.emod_eq_of_lt h.1 (Int.lt_of_le_sub_one h.2)]

/-- What the disassembler prints for an operand field, R71 and R72 allow. -/
theorem wellFormed_operandValue (d : SignedDecode) {m : Mnemonic} (hm : m ≠ .hlt) (a : Field5) :
    (TextForm.instruction m (operandValue d m a)).wellFormed d = true := by
  cases m with
  | hlt => exact absurd rfl hm
  | ldc =>
    cases d with
    | legacy => exact decide_eq_true (sval_legacy_range a)
    | twosComplement => exact decide_eq_true (sval_twosComplement_range a)
  | lod | sto | add | sub | jmp | jmz => exact decide_eq_true (uval_operand_range a)

/-- A number that R71 and R72 allow is the one printed for its operand field. -/
theorem operandValue_enc {d : SignedDecode} {m : Mnemonic} {n : Int}
    (h : (TextForm.instruction m n).wellFormed d = true) : operandValue d m (enc 5 n) = n := by
  cases m with
  | hlt => exact nomatch h
  | ldc =>
    cases d with
    | legacy =>
      obtain ⟨hlow, hhigh⟩ := of_decide_eq_true h
      exact sval_legacy_enc hlow hhigh
    | twosComplement =>
      obtain ⟨hlow, hhigh⟩ := of_decide_eq_true h
      exact sval_twosComplement_enc hlow hhigh
  | lod | sto | add | sub | jmp | jmz => exact uval_enc_operand (of_decide_eq_true h)

/-! ### HLT words -/

theorem disassemble_of_hlt (d : SignedDecode) {w : Word} (h : decode w = .hlt) :
    disassemble d w = if w = 0#8 then .halt else .constant (uval w) := by
  rw [disassemble, h]

/-- A HLT word that is not zero holds a constant that R71 allows. -/
theorem uval_range_of_hlt {w : Word} (h : decode w = .hlt) (hw : w ≠ 0#8) : 1 ≤ uval w ∧ uval w ≤ 31 := by
  have hlt : w.toNat < 32 := (decode_eq_hlt_iff w).1 h
  have hne : w.toNat ≠ 0 := fun h0 => hw (BitVec.eq_of_toNat_eq h0)
  unfold uval
  omega

/-- The word of a constant is a HLT word that holds it. -/
theorem disassemble_enc_constant (d : SignedDecode) {n : Int} (h1 : 1 ≤ n) (h31 : n ≤ 31) :
    disassemble d (enc 8 n) = .constant n := by
  have hval : uval (enc 8 n) = n := by rw [uval_enc, Int.emod_eq_of_lt (by omega) (by omega)]
  have hne : enc 8 n ≠ 0#8 := by
    intro h
    have hzero : uval (enc 8 n) = 0 := congrArg uval h
    omega
  have hhlt : decode (enc 8 n) = .hlt := by
    rw [decode_eq_hlt_iff]
    unfold uval at hval
    omega
  rw [disassemble_of_hlt d hhlt, if_neg hne, hval]

/-! ### Both round trips -/

theorem disassemble_then_assemble (d : SignedDecode) (w : Word) :
    (disassemble d w).wellFormed d = true ∧ assemble (disassemble d w) = w := by
  by_cases hhlt : decode w = .hlt
  · rw [disassemble_of_hlt d hhlt]
    split
    next hw => exact ⟨rfl, hw.symm⟩
    next hw =>
      exact ⟨decide_eq_true (uval_range_of_hlt hhlt hw), enc_uval w⟩
  · obtain ⟨m, a, hm, hi⟩ := exists_instr_eq hhlt
    have hw : w = encode (m.instr a) := by rw [hi, encode_decode hhlt]
    subst hw
    rw [disassemble_encode_instr d hm, assemble_instruction hm, enc_operandValue]
    exact ⟨wellFormed_operandValue d hm a, rfl⟩

theorem assemble_then_disassemble (d : SignedDecode) {t : TextForm} (h : t.wellFormed d = true) :
    disassemble d (assemble t) = t := by
  cases t with
  | halt => rfl
  | instruction m n =>
    have hm : m ≠ .hlt := by
      rintro rfl
      exact nomatch h
    rw [assemble_instruction hm, disassemble_encode_instr d hm, operandValue_enc h]
  | constant n =>
    obtain ⟨h1, h31⟩ := of_decide_eq_true h
    exact disassemble_enc_constant d h1 h31

/-- Settles O28: a word is a HLT word or the word of a mnemonic and an operand, a text a HLT form or a mnemonic
and a number; operands and numbers determine each other (`enc_operandValue`, `operandValue_enc`). -/
theorem assemblerAndDisassemblerAgree : Obligations.AssemblerAndDisassemblerAgree :=
  fun d => ⟨disassemble_then_assemble d, fun _ => assemble_then_disassemble d⟩

end Sys2Proof.Machine
end

section
/-! PROOFS. Steps and runs of steps: the halted machine (41_cycle.md R105), the writers of AC (10_state.md
section 1), self-modification (20_memory.md R56) and the words that come near to a no-op
(70_reset_and_hazards.md R193). -/

namespace Sys2Proof.Machine

/-! ### The halted machine -/

/-- A halted machine is stuck (41_cycle.md R105, log entry 4). -/
theorem step_of_halted {s : State} (h : s.run = .halted) : step s = .fault .halted := by
  rw [step, h]

/-- Settles O11: a halted machine is stuck, and no run goes on from a stuck state. -/
theorem haltedMachineHasNoStep : Obligations.HaltedMachineHasNoStep :=
  fun _ h => ⟨step_of_halted h, fun _ _ => not_reaches_succ_of_halted h⟩

/-! ### The instructions -/

/-- JMP under either value of the parameter, as an equation. -/
theorem jmpUnder_eq (d : SignedDecode) (a : Field5) (s : State) :
    jmpUnder d a s = .next (s.setPc (if isNonNegative d s.ac then a else nextPc s.pc)) :=
  jumpWhen_eq _ a s

/-- Settles O9: LDC's immediate and JMP's test under each value of the parameter. -/
theorem ldcAndJmpUnderEachSignedDecode : Obligations.LdcAndJmpUnderEachSignedDecode := by
  refine fun a s => ⟨rfl, rfl, ⟨_, rfl, ldcImmediate_legacy a⟩, ⟨_, rfl, ldcImmediate_twosComplement a⟩,
    ⟨_, jmpUnder_eq .legacy a s, ?_⟩, ⟨_, jmpUnder_eq .twosComplement a s, ?_⟩⟩
  · exact if_pos ((isNonNegative_iff_sval .legacy s.ac).2 (sval_legacy_nonneg s.ac))
  · exact toNat_jump_pc ((isNonNegative_iff_sval .twosComplement s.ac).trans
      (sval_twosComplement_nonneg_iff s.ac)) a s.pc

/-- Settles O15: HLT, STO and the jumps leave the accumulator. -/
theorem onlyFourInstructionsChangeTheAccumulator :
    Obligations.OnlyFourInstructionsChangeTheAccumulator := by
  intro s t h hac
  obtain ⟨-, hexec : exec (decode (s.readMem s.pc)) s = .next t⟩ := step_next h
  rcases exec_cases hexec with ⟨-, rfl⟩ | ⟨a, hi, -⟩ | ⟨a, hi, -⟩ | ⟨a, -, rfl⟩ | ⟨a, hi, -⟩ |
    ⟨a, hi, -⟩ | ⟨a, -, rfl⟩ | ⟨a, -, rfl⟩
  · exact absurd rfl hac
  · exact ⟨a, .inl hi⟩
  · exact ⟨a, .inr (.inl hi)⟩
  · exact absurd rfl hac
  · exact ⟨a, .inr (.inr (.inl hi))⟩
  · exact ⟨a, .inr (.inr (.inr hi))⟩
  · exact absurd rfl hac
  · exact absurd rfl hac

/-! ### A step that a word in memory selects -/

/-- A running machine's step, where the word at its PC is known. -/
theorem step_of_decode {s : State} {i : Instr} (h : s.run = .running) (hi : decode (s.readMem s.pc) = i) :
    step s = exec i s := by
  rw [step_of_running h, hi]

theorem eq_nextPc_of_toNat {a pc : Field5} (h : a.toNat = (pc.toNat + 1) % 32) : a = nextPc pc :=
  BitVec.eq_of_toNat_eq (h.trans (toNat_nextPc pc).symm)

/-- Settles O19: the PC advances to the address stored to, where the next fetch reads AC's word back. -/
theorem storeIsSeenByTheVeryNextFetch : Obligations.StoreIsSeenByTheVeryNextFetch := by
  refine ⟨fun s a hrun hsto ha => ?_, fun s hrun hsto => ?_⟩
  · obtain rfl := eq_nextPc_of_toNat ha
    have hword := exec_sto_readMem (exec_sto (nextPc s.pc) s)
    exact ⟨_, (step_of_decode hrun hsto).trans (exec_sto _ s), step_of_decode hrun (congrArg decode hword)⟩
  · exact ⟨_, (step_of_decode hrun hsto).trans (exec_sto _ s), rfl, exec_sto_readMem (exec_sto _ s),
      toNat_nextPc s.pc⟩

/-- Settles O27: the placed word is read back at the PC, and hides no other. -/
theorem placedWordIsWhatTheNextStepRuns : Obligations.PlacedWordIsWhatTheNextStepRuns := by
  intro s w hw
  have hmod : w % 2 ^ 8 = w := Nat.mod_eq_of_lt hw
  have hword : (s.withFetchWord 8 w).readMem (s.withFetchWord 8 w).pc = BitVec.ofNat 8 w :=
    (readMem_writeMem_same s s.pc _).trans (congrArg (BitVec.ofNat 8) hmod)
  refine ⟨_, ?_, rfl, step_of_decode rfl (congrArg decode hword), rfl, rfl,
    fun b hb => readMem_writeMem_other s _ hb⟩
  exact congrArg (fun v => some (decode (BitVec.ofNat 8 v))) hmod

/-! ### Runs that repeat a state -/

/-- A step that leaves the state as it is repeats it forever. -/
theorem reaches_iff_of_step_eq_self {s t : State} (h : step s = .next s) (n : Nat) :
    Reaches n s t ↔ s = t := by
  induction n with
  | zero => exact reaches_zero
  | succ n ih => rw [reaches_succ h, ih]

theorem exec_jmp_self {s : State} (h : 0 ≤ sval signedDecode s.ac) : exec (.jmp s.pc) s = .next s := by
  rw [exec_jmp, if_pos ((isNonNegative_iff_sval signedDecode s.ac).2 h)]
  rfl

theorem exec_jmz_self {s : State} (h : s.ac = 0b00000000#8) : exec (.jmz s.pc) s = .next s := by
  have hzero : isZero s.ac = true := decide_eq_true h
  rw [exec_jmz, if_pos hzero]
  rfl

/-- Settles O21: the jump's step leaves the state as it is. -/
theorem takenJumpToItselfRunsForever : Obligations.TakenJumpToItselfRunsForever := by
  intro s hrun hjump
  have hstep : step s = .next s := by
    rcases hjump with ⟨hi, hac⟩ | ⟨hi, hac⟩
    · exact (step_of_decode hrun hi).trans (exec_jmp_self hac)
    · exact (step_of_decode hrun hi).trans (exec_jmz_self hac)
  have hreach (n : Nat) : Reaches n s s := (reaches_iff_of_step_eq_self hstep n).2 rfl
  exact ⟨fun n => ⟨s, hreach n, hrun⟩, hreach⟩

/-! ### Words that come near to a no-op -/

/-- A STO of the word that is there already changes no word. -/
theorem readMem_writeMem_of_eq {s : State} {a : Field5} {v : Word} (h : s.readMem a = v) (b : Field5) :
    (s.writeMem a v).readMem b = s.readMem b := by
  by_cases hb : b = a
  · rw [hb, readMem_writeMem_same, h]
  · exact readMem_writeMem_other s v hb

/-- A jump to the next address leaves the PC there, taken or not. -/
theorem toNat_jump_next {a pc : Field5} (h : a.toNat = (pc.toNat + 1) % 32) (c : Bool) :
    (if c then a else nextPc pc).toNat = (pc.toNat + 1) % 32 := by
  rw [eq_nextPc_of_toNat h, ite_self, toNat_nextPc]

/-- Settles O22, one case per form. -/
theorem nearestFormsOfNoOpOnlyAdvanceThePc : Obligations.NearestFormsOfNoOpOnlyAdvanceThePc := by
  rintro a s i (⟨rfl, h⟩ | ⟨rfl, h⟩ | ⟨rfl, h⟩ | ⟨rfl, h⟩ | ⟨rfl, h⟩)
  · exact ⟨_, exec_jmp a s, rfl, rfl, toNat_jump_next h _, fun _ => rfl⟩
  · exact ⟨_, exec_jmz a s, rfl, rfl, toNat_jump_next h _, fun _ => rfl⟩
  · exact ⟨_, exec_lod a s, h, rfl, toNat_nextPc s.pc, fun _ => rfl⟩
  · exact ⟨_, exec_ldc a s, h, rfl, toNat_nextPc s.pc, fun _ => rfl⟩
  · exact ⟨_, exec_sto a s, rfl, rfl, toNat_nextPc s.pc, readMem_writeMem_of_eq h⟩

end Sys2Proof.Machine
end

section
/-! PROOFS. The machine against the spec's printed `Step` (41_cycle.md R100): the codec's two forms agree, the
fields of a word agree, and each instruction's step is the printed one. -/

namespace Sys2Proof.Machine

open Reference (bitsOf ofState encBits unsigned signed)

/-! ### The codec over rows of bits -/

theorem bit_mul_two_pow (b : Bool) (i : Nat) : Reference.bit b * 2 ^ i = if b then (2 : Int) ^ i else 0 := by
  cases b <;> simp [Reference.bit]

theorem unsigned_bitsOf {n : Nat} (v : BitVec n) : unsigned (bitsOf v) = uval v := by
  simp only [unsigned, bit_mul_two_pow]
  exact (unsignedValueIsTheWeightedSum n v).1.symm

theorem signed_bitsOf (d : SignedDecode) {n : Nat} (v : BitVec (n + 1)) : signed d (bitsOf v) = sval d v := by
  obtain ⟨hlegacy, htwos⟩ := signedValueIsThePrintedFormula n v
  cases d with
  | legacy =>
    simp only [signed, bit_mul_two_pow]
    exact hlegacy.symm
  | twosComplement =>
    simp only [signed, neg_mul, bit_mul_two_pow]
    exact htwos.symm

theorem encBits_eq_bitsOf_enc (n : Nat) (x : Int) : encBits n x = bitsOf (enc n x) := by
  funext i
  obtain ⟨hbits, -⟩ := encHasTheBitsOfTheInteger n x i.pos
  exact (hbits i i.isLt).symm

/-- Every row of bits is the row of a vector. -/
theorem exists_bitsOf_eq {n : Nat} (b : Reference.Bits n) : ∃ v : BitVec n, bitsOf v = b := by
  refine ⟨BitVec.ofFnLE b, funext fun i => ?_⟩
  simp [bitsOf]

/-! ### The fields of a word -/

theorem opcode_bitsOf (w : Word) : Reference.opcode (bitsOf w) = ((decode w).opcode : Nat) := by
  have hhigh : (fun i : Fin 3 => bitsOf w (i.natAdd 5)) = bitsOf (w.extractLsb' 5 3) := by
    funext i
    simp [bitsOf]
  have := w.isLt
  rw [Reference.opcode, hhigh, unsigned_bitsOf, opcode_decode, uval, BitVec.extractLsb'_toNat,
    Nat.shiftRight_eq_div_pow]
  omega

theorem operand_bitsOf (w : Word) : Reference.operand (bitsOf w) = bitsOf (operandField w) := by
  funext i
  simp [Reference.operand, bitsOf, operandField]

theorem address_unsigned (a : Field5) : Reference.address (unsigned (bitsOf a)) = a.toFin := by
  rw [unsigned_bitsOf]
  exact Fin.ext (Nat.mod_eq_of_lt a.isLt)

theorem address_advance (p : Field5) :
    Reference.address (((p.toFin : Nat) + 1 : Int) % 32) = (nextPc p).toFin := by
  have hnext : (((p.toFin : Nat) + 1 : Int) % 32) = ((nextPc p).toNat : Nat) := by
    rw [toNat_nextPc]
    rfl
  rw [hnext]
  exact Fin.ext (Nat.mod_eq_of_lt (nextPc p).isLt)

/-! ### The array machine of a state -/

theorem ofState_ac (s : State) : (ofState s).ac = bitsOf s.ac := rfl

theorem ofState_memory (s : State) (a : Field5) : (ofState s).memory a.toFin = bitsOf (s.readMem a) := rfl

theorem ofState_halted_iff (s : State) : (ofState s).halted = true ↔ s.run = .halted := isHalted_iff s

theorem ofState_setPc (s : State) (p : Field5) : ofState (s.setPc p) = { ofState s with pc := p.toFin } := rfl

/-- A write on the array. -/
theorem ofState_writeMem (s : State) (a : Field5) (v : Word) :
    ofState (s.writeMem a v) =
      { ofState s with memory := fun b => if b = a.toFin then bitsOf v else (ofState s).memory b } := by
  have hmemory : (ofState (s.writeMem a v)).memory =
      fun b => if b = a.toFin then bitsOf v else (ofState s).memory b := by
    funext b
    by_cases hb : b = a.toFin
    · rw [if_pos hb, hb, ofState_memory, readMem_writeMem_same]
    · have hne : BitVec.ofFin b ≠ a := fun e => hb (congrArg BitVec.toFin e)
      rw [if_neg hb]
      exact congrArg bitsOf (readMem_writeMem_other s v hne)
  rw [← hmemory]
  rfl

/-- A jump on the array, whose test says `p`. -/
theorem ofState_jump {c : Bool} {p : Prop} [Decidable p] (hc : c = true ↔ p) (s : State) (a b : Field5) :
    (if p then some { ofState s with pc := a.toFin } else some { ofState s with pc := b.toFin }) =
      some (ofState (s.setPc (if c then a else b))) := by
  rw [if_congr hc.symm rfl rfl]
  cases c <;> rfl

/-! ### One step -/

/-- The printed `Step` on the array of a running state is the execute phase of the decoded instruction: the
operand and the codec are read over to vectors, and the eight arms are compared one by one. -/
theorem step_ofState_of_running {s : State} (h : s.run = .running) :
    ∃ t, exec (decode (s.readMem s.pc)) s = .next t ∧
      Reference.step signedDecode (ofState s) = some (ofState t) := by
  have hhalted : ¬ (ofState s).halted = true := by rw [ofState_halted_iff, h]; exact nofun
  have hword : (ofState s).memory (ofState s).pc = bitsOf (s.readMem s.pc) := rfl
  have hadvance : Reference.address (((ofState s).pc + 1) % 32) = (nextPc s.pc).toFin := address_advance s.pc
  rw [Reference.step, if_neg hhalted, decode_eq_withOperand_operandField]
  simp only [hword, hadvance, opcode_bitsOf, operand_bitsOf, address_unsigned, ofState_ac, ofState_memory,
    signed_bitsOf, encBits_eq_bitsOf_enc, ← aluSum_eq_enc_sval, ← aluDifference_eq_enc_sval]
  generalize operandField (s.readMem s.pc) = a
  cases decode (s.readMem s.pc) with
  | hlt => exact ⟨_, exec_hlt s, rfl⟩
  | lod => exact ⟨_, exec_lod a s, rfl⟩
  | ldc => exact ⟨_, exec_ldc a s, rfl⟩
  | sto =>
    refine ⟨_, exec_sto a s, ?_⟩
    rw [ofState_setPc, ofState_writeMem]
    rfl
  | add => exact ⟨_, exec_add a s, rfl⟩
  | sub => exact ⟨_, exec_sub a s, rfl⟩
  | jmp => exact ⟨_, exec_jmp a s, ofState_jump (isNonNegative_iff_sval signedDecode s.ac) s a (nextPc s.pc)⟩
  | jmz => exact ⟨_, exec_jmz a s, ofState_jump (isZero_iff_sval signedDecode s.ac) s a (nextPc s.pc)⟩

/-- Settles O17: a running state by `step_ofState_of_running`; a halted one is refused on both sides. -/
theorem stepRefinesThePrintedStep : Obligations.StepRefinesThePrintedStep := by
  refine fun s => ⟨fun h => ?_, fun h => ⟨step_of_halted h, if_pos ((ofState_halted_iff s).2 h)⟩⟩
  rw [step_of_running h]
  exact step_ofState_of_running h

/-! ### The part of `SIGNED_DECODE` in the printed step

ADD's and SUB's results and JMZ's test are the same under both values of the parameter. -/

theorem encBits_signed_add (d e : SignedDecode) (x y : Reference.Bits 8) :
    encBits 8 (signed d x + signed d y) = encBits 8 (signed e x + signed e y) := by
  obtain ⟨v, rfl⟩ := exists_bitsOf_eq x
  obtain ⟨w, rfl⟩ := exists_bitsOf_eq y
  simp only [signed_bitsOf, encBits_eq_bitsOf_enc, ← aluSum_eq_enc_sval]

theorem encBits_signed_sub (d e : SignedDecode) (x y : Reference.Bits 8) :
    encBits 8 (signed d x - signed d y) = encBits 8 (signed e x - signed e y) := by
  obtain ⟨v, rfl⟩ := exists_bitsOf_eq x
  obtain ⟨w, rfl⟩ := exists_bitsOf_eq y
  simp only [signed_bitsOf, encBits_eq_bitsOf_enc, ← aluDifference_eq_enc_sval]

theorem signed_eq_zero_iff (d e : SignedDecode) (x : Reference.Bits 8) :
    signed d x = 0 ↔ signed e x = 0 := by
  obtain ⟨v, rfl⟩ := exists_bitsOf_eq x
  simp only [signed_bitsOf, sval_eq_zero_iff]

/-- Settles O18: outside the arms of the opcodes 2 and 6 the parameter occurs in ADD, SUB and JMZ only, which
do not see it. -/
theorem onlyLdcAndJmpDependOnSignedDecode : Obligations.OnlyLdcAndJmpDependOnSignedDecode := by
  intro m d e hldc hjmp
  simp only [Reference.step, if_neg hldc, if_neg hjmp, encBits_signed_add d e, encBits_signed_sub d e,
    signed_eq_zero_iff d e]

end Sys2Proof.Machine
end

section
/-! PROOFS. The invariant of the state (log entry 7), what the steps of a run keep, and the view of a state
(41_cycle.md R107). -/

namespace Sys2Proof.Machine

/-! ### What every step keeps, every run keeps -/

theorem reaches_succ_iff {n : Nat} {s t : State} :
    Reaches (n + 1) s t ↔ ∃ u, step s = .next u ∧ Reaches n u t := by
  constructor
  · intro hreach
    cases hrun : s.run with
    | running =>
      obtain ⟨u, hu⟩ := step_total_of_running hrun
      exact ⟨u, hu, (reaches_succ hu).1 hreach⟩
    | halted => exact absurd hreach (not_reaches_succ_of_halted hrun)
  · rintro ⟨u, hu, hreach⟩
    exact (reaches_succ hu).2 hreach

/-- The induction on the length of a run, once. -/
theorem reaches_keeps {P : State → Prop} (hkeeps : ∀ s t, P s → step s = .next t → P t) {n : Nat}
    {s t : State} (hs : P s) (h : Reaches n s t) : P t := by
  induction n generalizing s with
  | zero => exact reaches_zero.1 h ▸ hs
  | succ n ih =>
    obtain ⟨u, hu, hreach⟩ := reaches_succ_iff.1 h
    exact ih (hkeeps s u hs hu) hreach

/-! ### The canonical form of the memory -/

/-- Settles O40: the reset memory lists nothing. -/
theorem resetMeetsTheMemoryForm : Obligations.ResetMeetsTheMemoryForm :=
  ⟨List.Pairwise.nil, nofun⟩

/-- Every instruction but STO keeps the list itself, and STO's write keeps its form (`writeMem_keeps_wf`). -/
theorem exec_keeps_stateInv {i : Instr} {s t : State} (hs : StateInv s) (h : exec i s = .next t) :
    StateInv t := by
  rcases exec_cases h with ⟨-, rfl⟩ | ⟨a, -, rfl⟩ | ⟨a, -, rfl⟩ | ⟨a, -, rfl⟩ | ⟨a, -, rfl⟩ |
    ⟨a, -, rfl⟩ | ⟨a, -, rfl⟩ | ⟨a, -, rfl⟩
  case inr.inr.inr.inl => exact writeMem_keeps_wf a s.ac hs
  all_goals exact hs

/-- Settles O41: a step is an instruction, and every instruction keeps the form. -/
theorem stepKeepsTheMemoryForm : Obligations.StepKeepsTheMemoryForm :=
  fun _ _ hs h => exec_keeps_stateInv hs (step_next h).2

/-- A started run starts from an image that fits, loaded into the reset state. -/
theorem startRun_eq_some_iff {image : List Word} {s : State} : startRun image = some s ↔
    image.length ≤ 32 ∧ { State.reset with mem := Memory.loadFrom State.reset.mem 0 image } = s := by
  rw [startRun, Option.ite_none_right_eq_some, imageWellFormed, decide_eq_true_iff, Config.memWords]
  simp only [Option.some.injEq]

/-- Settles O42: loading inside the bank keeps the form, by induction on the image (`loadFrom_keeps_wf`). -/
theorem startOfRunMeetsTheMemoryForm : Obligations.StartOfRunMeetsTheMemoryForm := by
  intro image s h
  obtain ⟨hlength, rfl⟩ := startRun_eq_some_iff.1 h
  exact loadFrom_keeps_wf image (by omega) resetMeetsTheMemoryForm

/-- Settles O43: the start meets the invariant and every step keeps it. -/
theorem reachedStatesMeetTheMemoryForm : Obligations.ReachedStatesMeetTheMemoryForm :=
  fun image _ s _ hstart => reaches_keeps stepKeepsTheMemoryForm (startOfRunMeetsTheMemoryForm image s hstart)

/-! ### The canonical form is canonical -/

/-- A canonical memory lists exactly what its reads find to differ from an unlisted word. -/
theorem mem_iff_get {m : Memory} (hm : Memory.wf m) (c : Host.Cell) :
    c ∈ m ↔ c.1 < Config.memWords ∧ c.2 ≠ Memory.unlisted ∧ Memory.get m c.1 = c.2 := by
  constructor
  · intro hc
    obtain ⟨haddr, hword⟩ := hm.2 c hc
    exact ⟨haddr, hword, get_of_mem hm.1 hc⟩
  · rintro ⟨-, hword, hget⟩
    have hmem : (c.1, Memory.get m c.1) ∈ m := mem_of_get (hget ▸ hword)
    rwa [hget] at hmem

/-- Two canonical memories that read the same at every address of the bank are the same list: they have the
same entries, in rising order. -/
theorem wf_eq_of_get_eq {m m' : Memory} (hm : Memory.wf m) (hm' : Memory.wf m')
    (h : ∀ a < Config.memWords, Memory.get m a = Memory.get m' a) : m = m' := by
  have hentries (c : Host.Cell) : c ∈ m ↔ c ∈ m' := by
    rw [mem_iff_get hm, mem_iff_get hm']
    exact and_congr_right fun haddr => by rw [h c.1 haddr]
  have : Std.Irrefl fun c d : Host.Cell => c.1 < d.1 := ⟨fun c => lt_irrefl c.1⟩
  have : Std.Antisymm fun c d : Host.Cell => c.1 < d.1 := ⟨fun _ _ hlt hgt => absurd hgt hlt.asymm⟩
  exact hm.1.eq_of_mem_iff hm'.1 hentries

/-- Settles O44: the registers are equal by the view, the memories by `wf_eq_of_get_eq`. -/
theorem equalViewsAreEqualStates : Obligations.EqualViewsAreEqualStates := by
  rintro ⟨ac, pc, run, mem⟩ ⟨ac', pc', run', mem'⟩ hs ht ⟨rfl, rfl, rfl, hread⟩
  obtain rfl : mem = mem' := wf_eq_of_get_eq hs ht fun a ha => hread (BitVec.ofNatLT a ha)
  rfl

/-! ### Runs and views -/

/-- One step of the relation: equal views are what a step can see (`memoryIsReachedByTheListedAccessesOnly`),
and after it each word is AC's in both states or unchanged in both. -/
theorem step_sameView {s s' t : State} (h : SameView s s') (ht : step s = .next t) :
    ∃ t', step s' = .next t' ∧ SameView t t' := by
  obtain ⟨hac, hpc, hrun, hread⟩ := h
  obtain ⟨t', ht', hac', hpc', hrun', hmem⟩ := memoryIsReachedByTheListedAccessesOnly s s' t hac hpc hrun
    (hpc ▸ hread s.pc) (fun a _ => hread a) ht
  refine ⟨t', ht', hac'.symm, hpc'.symm, hrun'.symm, fun b => ?_⟩
  obtain ⟨hsto, hother⟩ := hmem b
  by_cases hi : decode (s.readMem s.pc) = .sto b
  · obtain ⟨hb, hb'⟩ := hsto hi
    exact hb.trans hb'.symm
  · obtain ⟨hb, hb'⟩ := hother hi
    rw [hb, hb', hread b]

/-- Settles O45, by induction on the number of steps, each of which keeps equal views (`step_sameView`). -/
theorem runsDependOnTheViewOnly : Obligations.RunsDependOnTheViewOnly := by
  intro n
  induction n with
  | zero =>
    rintro s s' t hview hreach
    obtain rfl := reaches_zero.1 hreach
    exact ⟨s', reaches_zero.2 rfl, hview⟩
  | succ n ih =>
    intro s s' t hview hreach
    obtain ⟨u, hu, hreach⟩ := reaches_succ_iff.1 hreach
    obtain ⟨u', hu', hview⟩ := step_sameView hview hu
    obtain ⟨t', hreach', hview⟩ := ih u u' t hview hreach
    exact ⟨t', (reaches_succ hu').2 hreach', hview⟩

end Sys2Proof.Machine
end

section
/-! PROOFS. The host's interface: the start of a run and the step budget (70_reset_and_hazards.md R180 to
R191). -/

namespace Sys2Proof.Machine

/-! ### The start of a run -/

/-- Settles O38: the image fails the length check. -/
theorem longerImageStartsNoRun : Obligations.LongerImageStartsNoRun := by
  refine fun image h => Option.eq_none_iff_forall_ne_some.2 fun s hs => ?_
  obtain ⟨hlength, -⟩ := startRun_eq_some_iff.1 hs
  omega

/-- Settles O39: the reset memory reads `00000000` at address 0, which is a HLT word. -/
theorem emptyMemoryHaltsAtAddressZero : Obligations.EmptyMemoryHaltsAtAddressZero :=
  ⟨startRun_of_length_le (Nat.zero_le 32), (step_of_decode rfl rfl).trans (exec_hlt State.reset)⟩

/-! ### The step budget -/

/-- At a halted state the run has ended, whatever the budget. -/
theorem runUnder_of_halted (n : Nat) {s : State} (h : s.run = .halted) : ∃ r, runUnder n s = .ended r :=
  ⟨_, runUnder_of_result (result_of_halted h)⟩

/-- Settles O49, by induction on the budget: a halted machine has ended, and a running one spends a step. -/
theorem runsEndOrExhaustTheirBudget : Obligations.RunsEndOrExhaustTheirBudget := by
  intro n
  induction n with
  | zero =>
    intro s
    cases h : s.run with
    | running => exact .inr ⟨s, runUnder_zero h⟩
    | halted => exact .inl (runUnder_of_halted _ h)
  | succ n ih =>
    intro s
    cases h : s.run with
    | running =>
      obtain ⟨u, hu⟩ := step_total_of_running h
      rw [runUnder_succ h hu]
      exact ih u
    | halted => exact .inl (runUnder_of_halted _ h)

/-- A halted machine has ended, and its budget is not exhausted (log entry 9). -/
theorem running_of_runUnder_eq_budgetExhausted {n : Nat} {s t : State}
    (h : runUnder n s = .budgetExhausted t) : s.run = .running := by
  cases hrun : s.run with
  | running => rfl
  | halted =>
    obtain ⟨r, hended⟩ := runUnder_of_halted n hrun
    exact nomatch hended.symm.trans h

/-- A budget that runs out leaves the running state that its steps come to. -/
theorem runUnder_eq_budgetExhausted {n : Nat} {s t : State} (h : runUnder n s = .budgetExhausted t) :
    t.run = .running ∧ Reaches n s t := by
  have hrun := running_of_runUnder_eq_budgetExhausted h
  induction n generalizing s with
  | zero =>
    obtain rfl := RunOutcome.budgetExhausted.inj ((runUnder_zero hrun).symm.trans h)
    exact ⟨hrun, rfl⟩
  | succ n ih =>
    obtain ⟨u, hu⟩ := step_total_of_running hrun
    rw [runUnder_succ hrun hu] at h
    rw [reaches_succ hu]
    exact ih h (running_of_runUnder_eq_budgetExhausted h)

/-- Settles O47: the state that the budget's steps come to is still running, so it has no result. -/
theorem exhaustedBudgetIsNotAHalt : Obligations.ExhaustedBudgetIsNotAHalt := by
  intro n s t h
  obtain ⟨hrun, hreach⟩ := runUnder_eq_budgetExhausted h
  exact ⟨hrun, hreach, result_of_running hrun⟩

/-- Settles O48: a result reached within `n` steps is reached within `n + k`. -/
theorem largerBudgetKeepsTheResult : Obligations.LargerBudgetKeepsTheResult := by
  intro n k s r h
  obtain ⟨j, t, hj, hreach, hresult⟩ := runUnder_eq_ended_iff.1 h
  exact runUnder_eq_ended_iff.2 ⟨j, t, Nat.le_add_right_of_le hj, hreach, hresult⟩

/-! ### The HLT that ended a run -/

/-- If the machine is halted, the word at its PC is a HLT word. -/
def HaltedAtHlt (s : State) : Prop := s.run = .halted → decode (s.readMem s.pc) = .hlt

/-- A HLT step leaves the PC at its own word, and after any other step the machine is running. -/
theorem step_haltedAtHlt {s t : State} (h : step s = .next t) : HaltedAtHlt t := by
  intro hhalted
  obtain ⟨hrunning, hexec : exec (decode (s.readMem s.pc)) s = .next t⟩ := step_next h
  by_cases hi : decode (s.readMem s.pc) = .hlt
  · rw [hi] at hexec
    cases hexec
    exact hi
  · have hkept := exec_run_of_ne_hlt hi hexec
    exact nomatch hhalted.symm.trans (hkept.trans hrunning)

theorem memOut_getElem? (s : State) (a : Field5) : s.memOut[a.toNat]? = some (s.readMem a) := by
  rw [memOut_eq_ofFn, List.getElem?_ofFn, dif_pos a.isLt]
  rfl

/-- Settles O50: a started run is running, every step keeps `HaltedAtHlt`, and the result's PC and memory are
those of the halted state. -/
theorem endedRunReportsTheHltThatEndedIt : Obligations.EndedRunReportsTheHltThatEndedIt := by
  intro image s n r hstart hended
  obtain ⟨-, rfl⟩ := startRun_eq_some_iff.1 hstart
  obtain ⟨k, t, -, hreach, hresult⟩ := runUnder_eq_ended_iff.1 hended
  obtain ⟨hhalted, hmem, -, -, hpc⟩ := result_eq_some_iff.1 hresult
  have hloaded : HaltedAtHlt { State.reset with mem := Memory.loadFrom State.reset.mem 0 image } :=
    fun h : RunState.running = .halted => nomatch h
  have hhlt : HaltedAtHlt t := reaches_keeps (fun _ _ _ => step_haltedAtHlt) hloaded hreach
  exact ⟨t.readMem t.pc, by rw [hmem, hpc, memOut_getElem?], hhlt hhalted⟩

end Sys2Proof.Machine
end
